-- ==== Sys2Proof/Word.lean ====
section
/-!
DEFINITION. The bit-vector widths the spec uses: a byte, an instruction word (R50), a general register or operand
(R10, R17), a physical address field (R20) and the register field of the instruction word (R54).
-/

namespace Sys2Proof

/-- The smallest addressable unit: addresses in a PA space are byte addresses (R30). -/
abbrev Byte := BitVec 8

/-- One instruction word, 32 bits (R50). PRESUMED: log entry 9. -/
abbrev Word32 := BitVec 32

/-- One general register, the program counter or the operand of DC CIPAE, 64 bits (R10, R12, R17). -/
abbrev Word64 := BitVec 64

/-- The operand's PA field, 52 bits (R20). -/
abbrev PAddr := BitVec 52

/-- A register number as the instruction word holds it: the 5-bit field Rt (R54). All 32 values name a register (R53):
0 to 30 are X0 to X30, 31 is XZR. PRESUMED: log entry 7. -/
abbrev RegNum := BitVec 5

end Sys2Proof
end

