-- ==== Sys2Proof/Config.lean ====
section
/-!
DEFINITION. What is fixed for one machine (the parameters of R6 and the program text of R105), the turns the agents take,
and the one free value. The parameters are plain data carried in State, so that a statement about every state is a
statement about every configuration: log entry 2.
-/

namespace Sys2Proof

/-- The two editions of the source page (R2). `new` is adopted (D1), `old` is the marked alternative of R76. Log entry 1. -/
inductive Edition where
  | new
  | old
  deriving DecidableEq, Repr

/-- Physical address spaces. The page names Realm alone (R30). PRESUMED: the other three names are the family's
(R18, GK9), kept so that the same PA in two spaces names two locations (R30). Log entry 12. -/
inductive PASpace where
  | nonSecure
  | secure
  | realm
  | root
  deriving DecidableEq, Repr

/-- A cache line of a PA space: the pair `(pas, idx)` of R21. -/
structure LineId where
  space : PASpace
  idx   : Nat
  deriving DecidableEq, Repr

/-- A run of byte addresses that exist in a PA space: one piece of MEM_DOMAIN (R6, R39). Log entry 17. -/
structure Region where
  space : PASpace
  base  : Nat
  size  : Nat
  deriving DecidableEq, Repr

/-- The parameters of R6. OPERAND_BITS, PA_FIELD_BITS and XLEN are the widths of Word.lean; DC_FAULT is an argument of the
instruction's meaning (log entry 23). -/
structure Config where
  /-- FEAT_MEC_IMPLEMENTED, OPEN (D9). -/
  featMec    : Bool
  /-- EDITION (D1). -/
  edition    : Edition
  /-- PA_BITS, OPEN (D11). -/
  paBits     : Nat
  /-- The base-two logarithm of LINE_BYTES, OPEN: LINE_BYTES is a power of two (R33). Log entry 16. -/
  lineShift  : Nat
  /-- MEM_DOMAIN, OPEN (D29). -/
  memDomain  : List Region
  /-- DC_ATOMIC (D14, R77). -/
  dcAtomic   : Bool
  /-- RES0_STRICT (D10, R19). -/
  res0Strict : Bool
  deriving DecidableEq, Repr

/-- LINE_BYTES, a power of two and so at least 1 (R33). -/
def Config.lineBytes (c : Config) : Nat := 2 ^ c.lineShift

/-- The program text: 32-bit words at consecutive addresses from the base address B (R105). No step writes it (R39, R43). -/
structure Program where
  base  : Word64
  words : List Word32
  deriving DecidableEq, Repr

/-- What the environment agent may do to a line (R24). -/
inductive EnvMove where
  | fill
  | evict
  | cleanBG
  | write (d : List Byte)
  | writeThrough (d : List Byte)
  deriving DecidableEq, Repr

/-- Which agent moves in a step, and what it does. The spec leaves the choice to a scheduler (R40). Log entry 21. -/
inductive Turn where
  /-- The PE executes the instruction at `pc` (R65). -/
  | pe
  /-- The maintenance agent performs the pending request for this line (R71). -/
  | maintenance (l : LineId)
  /-- The environment agent acts on this line (R24). -/
  | environment (l : LineId) (m : EnvMove)
  deriving DecidableEq, Repr, Inhabited

/-- FREE VALUE. The turn taken when no turn is decided yet: the scheduler of R40 is unconstrained, so this has no body and
nothing can be proved of its values. It is applied to the counter `State.choices`. Log entry 21. -/
opaque Config.freeTurn : Nat → Turn

end Sys2Proof
end

