-- ==== Sys2Proof/Syntax.lean ====
section
/-!
DEFINITION. The syntax of the one instruction of spec/opcode_table.json.
-/

namespace Sys2Proof

/-- The instructions of the opcode map, which has one row (R61). -/
inductive Instr where
  /-- `DC CIPAE, <Xt>` (R56, R65). `t` is the number of the one register operand, which is read and never written. -/
  | dcCipae (t : RegNum)
  deriving DecidableEq, Repr

end Sys2Proof
end

