-- ==== Sys2Proof/WellFormed.lean ====
section
/-!
DEFINITION. The checks on what a machine is given before it runs: the instruction, the parameters, the program text.
-/

namespace Sys2Proof

/-- Every five-bit register number is an operand of DC CIPAE (R53: all 32 values of `t` decode), so the type of the operand
already holds the check. -/
def Instr.wellFormed : Instr → Bool
  | .dcCipae _ => true

/-- PA_BITS is 1 to 52 (R6). -/
def Config.wellFormed (c : Config) : Bool :=
  decide (1 ≤ c.paBits) && decide (c.paBits ≤ 52)

/-- The text starts at a 4-byte-aligned address (R105) and ends low enough that `pc` plus 4 wraps at none of its words
(R12: a `pc` above 2^64 - 8 is refused). -/
def Program.wellFormed (p : Program) : Bool :=
  decide (p.base.toNat % 4 = 0) && decide (p.base.toNat + 4 * p.words.length ≤ 2 ^ 64 - 4)

end Sys2Proof
end

