-- ==== Sys2Proof/Decode.lean ====
section
/-!
DEFINITION. Decoding and encoding of the one instruction word (R50 to R54, R59), and the byte order of an instruction word
(R36), with the assembler's spellings (R56, R57). The word layout of R52 is the spec's general knowledge, PRESUMED: log entry 10.
-/

namespace Sys2Proof

/-- Why bytes are no instruction of this spec. -/
inductive DecodeError where
  /-- Fewer than the four bytes of an instruction word (R50). -/
  | truncated
  /-- A word that no source shows: the verdict of R59 on every word but the 32 of R53. -/
  | notShown
  deriving DecidableEq, Repr

/-- The fields of a System instruction word, most significant first (R52). -/
structure SysFields where
  fixed : BitVec 10
  l     : BitVec 1
  op0   : BitVec 2
  op1   : BitVec 3
  crn   : BitVec 4
  crm   : BitVec 4
  op2   : BitVec 3
  rt    : RegNum
  deriving DecidableEq, Repr

/-- The fields at the positions of R52. -/
def sysFields (w : Word32) : SysFields where
  fixed := w.extractLsb' 22 10
  l     := w.extractLsb' 21 1
  op0   := w.extractLsb' 19 2
  op1   := w.extractLsb' 16 3
  crn   := w.extractLsb' 12 4
  crm   := w.extractLsb' 8 4
  op2   := w.extractLsb' 5 3
  rt    := w.extractLsb' 0 5

/-- The word with these fields at the positions of R52. -/
def sysWord (f : SysFields) : Word32 :=
  f.fixed ++ f.l ++ f.op0 ++ f.op1 ++ f.crn ++ f.crm ++ f.op2 ++ f.rt

/-- The row of DC CIPAE: the page's five field values (R51), the fixed bits and L of R52. -/
def dcCipaeFields (t : RegNum) : SysFields where
  fixed := 0b1101010100
  l     := 0b0
  op0   := 0b01
  op1   := 0b100
  crn   := 0b0111
  crm   := 0b1110
  op2   := 0b000
  rt    := t

/-- Decode one instruction word: DC CIPAE when every field but Rt is the row's (R53), else not shown (R59). -/
def decodeWord (w : Word32) : Except DecodeError Instr :=
  let f := sysFields w
  if f = dcCipaeFields f.rt then .ok (.dcCipae f.rt) else .error .notShown

/-- The word in four bytes of memory, lowest address first: little-endian (R36). -/
def wordOfBytes (b0 b1 b2 b3 : Byte) : Word32 := b3 ++ b2 ++ b1 ++ b0

/-- The four bytes of a word, lowest address first: little-endian (R36). -/
def bytesOfWord (w : Word32) : List Byte :=
  [w.extractLsb' 0 8, w.extractLsb' 8 8, w.extractLsb' 16 8, w.extractLsb' 24 8]

/-- Decode the instruction at the front of some bytes, and give the bytes after it (R50). -/
def decode : List Byte → Except DecodeError (Instr × List Byte)
  | b0 :: b1 :: b2 :: b3 :: rest =>
    match decodeWord (wordOfBytes b0 b1 b2 b3) with
    | .ok i => .ok (i, rest)
    | .error e => .error e
  | _ => .error .truncated

/-- The instruction word of an instruction (R51, R52). -/
def encodeWord : Instr → Word32
  | .dcCipae t => sysWord (dcCipaeFields t)

/-- The bytes of an instruction, lowest address first. -/
def encode (i : Instr) : List Byte := bytesOfWord (encodeWord i)

/-- The instruction the decoder reads from the opcode table's numbering of an instruction's bits: with one 32-bit word, bit
`k` of `w` is bit `k` of the word. Bits at or above `nbits` are 0. -/
def decodeTableWord (nbits w : Nat) : Option Instr :=
  match decode (bytesOfWord (BitVec.ofNat 32 (w % 2 ^ nbits))) with
  | .ok (i, _) => some i
  | .error _ => none

/-- The assembler's name of a register: X0 to X30, XZR (R56). PRESUMED: log entry 7. -/
def regName (t : RegNum) : String := if t = 31 then "XZR" else "X" ++ toString t.toNat

/-- The assembler syntax (R56). -/
def assembly : Instr → String
  | .dcCipae t => "DC CIPAE, " ++ regName t

/-- The generic spelling of a System instruction with L = 0, from its fields (R57). PRESUMED: log entry 10. -/
def genericAssembly (i : Instr) : String :=
  let f := sysFields (encodeWord i)
  "SYS #" ++ toString f.op1.toNat ++ ", C" ++ toString f.crn.toNat ++ ", C" ++ toString f.crm.toNat ++
    ", #" ++ toString f.op2.toNat ++ ", " ++ regName f.rt

end Sys2Proof
end

