-- ==== Sys2Proof/Machine/State.lean ====
section
/-!
DEFINITION. The state of the machine as plain data, the reasons a step can stop, and the state the model takes as the one
after reset. The pieces of state are those of spec/10_state.md.
-/

namespace Sys2Proof.Machine

/-- Exception levels: the four values the page compares PSTATE.EL with (R13). -/
inductive EL where
  | el0
  | el1
  | el2
  | el3
  deriving DecidableEq, Repr

/-- Security states. The page names Realm (R15); PRESUMED: the other three names are the family's (GK8). Only the test
for Realm is ever made. Log entry 12. -/
inductive SecurityState where
  | nonSecure
  | secure
  | realm
  | root
  deriving DecidableEq, Repr

/-- The exceptions of R85, as the fault record holds them (R26) and as a step reports them once the PE has stopped. -/
inductive Fault where
  /-- Raised by DC CIPAE for the causes of R86. The raising step records it and answers a next state; a later turn of the
  PE answers it as a fault. Safe: the PE stops where hardware would enter a handler (log entry 11). -/
  | undefined
  /-- Raised by DC CIPAE at EL1 under the old edition only (R87), with the page's number. Recorded and answered like
  `undefined`. Safe (log entries 11 and 28). -/
  | trapToEL2 (ec : Nat)
  deriving DecidableEq, Repr

/-- Why a step has no meaning in this model. -/
inductive Refusal where
  /-- An instruction whose arm of exec is not written yet; no arm answers it. Safe. -/
  | notModelled (mnemonic : String)
  /-- Raised by the PE's fetch: the word at `pc` is not DC CIPAE, so no source shows it (R59). Safe (log entry 10). -/
  | notShown
  /-- Raised by the PE's fetch: `pc` is not a multiple of 4 (R12, R37). Safe (log entry 8). -/
  | pcMisaligned
  /-- Raised by the PE's fetch: `pc` is above 2^64 - 8 (R12). Safe (log entry 8). -/
  | pcAtTop
  /-- Raised by the PE's fetch: the program text holds no word at `pc`, as at the end of a run (R110). Safe
  (log entry 26). -/
  | noProgramWord
  /-- Raised by DC CIPAE under RES0_STRICT: the operand has one of bits [61:52] set (R19). Safe (log entry 14). -/
  | res0Operand
  deriving DecidableEq, Repr

/-- One value for each PA space. -/
structure Banked (α : Type) where
  nonSecure : α
  secure    : α
  realm     : α
  root      : α
  deriving DecidableEq, Repr

/-- The bytes at and beyond the PoE in one PA space, as (address, byte) pairs in the canonical form of `Memory.wf`. -/
abbrev Memory := List Host.Cell

/-- A line held before the PoE: `cached[pas, idx] = some data` with `dirty[pas, idx]` (R21). A line that no entry names is
one with `cached = none` and `dirty = false`, so `dirty` is false wherever `cached` is none. -/
structure CacheLine where
  idx   : Nat
  data  : List Byte
  dirty : Bool
  deriving DecidableEq, Repr

/-- The lines of one PA space that the logical cache of R21 holds, by rising index. -/
abbrev CacheBank := List CacheLine

/-- Everything the spec gives the machine, with its parameters (log entry 2) and the model's scheduler (log entry 21). -/
structure State where
  /-- The parameters of R6. -/
  cfg        : Config
  /-- The program text and its base address B (R39, R105). -/
  program    : Program
  /-- `x[0]` to `x[30]` (R10). -/
  regs       : Vector Word64 31
  /-- The address of the instruction being executed (R12). -/
  pc         : Word64
  /-- PSTATE.EL (R13). -/
  el         : EL
  /-- SS, the current Security state (R15). -/
  ss         : SecurityState
  /-- EL2Enabled, read under the old edition only (R16). -/
  el2Enabled : Bool
  /-- HCR_EL2.NV, read under the old edition only (R16). -/
  hcrEl2Nv   : BitVec 1
  /-- `cached` and `dirty` (R21). -/
  cache      : Banked CacheBank
  /-- `mem`, the value of each line at and beyond the PoE (R22). -/
  mem        : Banked Memory
  /-- `pendingDC`, the multiset of issued requests, as a list in the order of `LineId.le` (R23). Log entry 27. -/
  pendingDC  : List LineId
  /-- The fault record (R26). -/
  fault      : Option Fault
  /-- The model's own: the turns already decided, the next one first. Log entry 21. -/
  schedule   : List Turn
  /-- The model's own: how many turns were drawn from `Config.freeTurn`. Log entry 21. -/
  choices    : Nat
  deriving DecidableEq, Repr

/-- The parameters the model takes for the state after reset. DESIGN CHOICE: the common configuration of
spec/95_test_vectors.md section 3. Log entry 3. -/
def resetConfig : Config where
  featMec    := true
  edition    := .new
  paBits     := 48
  lineShift  := 6
  memDomain  := [{ space := .realm, base := 0, size := 2 ^ 48 }]
  dcAtomic   := false
  res0Strict := false

/-- The state the model takes as the one after reset. The spec fixes `pendingDC` and `fault` alone (R27); the rest is
DESIGN CHOICE (log entries 3, 4, 6, 21, 26) or the family's, PRESUMED (log entry 5). -/
def State.reset : State where
  cfg        := resetConfig
  program    := { base := 0, words := [] }
  regs       := Vector.replicate 31 0
  pc         := 0
  el         := .el3
  ss         := .root
  el2Enabled := false
  hcrEl2Nv   := 0
  cache      := { nonSecure := [], secure := [], realm := [], root := [] }
  mem        := { nonSecure := [], secure := [], realm := [], root := [] }
  pendingDC  := []
  fault      := none
  schedule   := []
  choices    := 0

end Sys2Proof.Machine
end

