-- ==== Sys2Proof/Machine/Flags.lean ====
section
/-!
DEFINITION. The tests on PSTATE and the status the page's pseudocode makes. There is no condition flag in the spec and
DC CIPAE computes none (R14), so this file holds the status tests alone.
-/

namespace Sys2Proof.Machine

/-- `IsCurrentSecurityState(SS_Realm)` (R9, R15). -/
def isCurrentSecurityStateRealm (s : State) : Bool := decide (s.ss = .realm)

/-- `EL2Enabled() && HCR_EL2.NV == '1'`, the old edition's trap condition (R16, R76). -/
def nestedVirtTrap (s : State) : Bool := s.el2Enabled && decide (s.hcrEl2Nv = 1)

/-- The number the old page gives `AArch64.SystemAccessTrap` (R87). -/
def systemAccessEC : Nat := 0x18

/-- The new edition's check on level and Security state (R67): the exception it ends in, none when DC CIPAE executes. -/
def levelCheckNew (s : State) : Option Fault :=
  match s.el with
  | .el0 => some .undefined
  | .el1 => some .undefined
  | .el2 => if isCurrentSecurityStateRealm s then none else some .undefined
  | .el3 => none

/-- The old edition's check (R76). -/
def levelCheckOld (s : State) : Option Fault :=
  match s.el with
  | .el0 => some .undefined
  | .el1 => if nestedVirtTrap s then some (.trapToEL2 systemAccessEC) else some .undefined
  | .el2 => none
  | .el3 => none

/-- The whole access check, FEAT_MEC first (R66, R90; log entry 29). -/
def accessCheck (s : State) : Option Fault :=
  if s.cfg.featMec then
    match s.cfg.edition with
    | .new => levelCheckNew s
    | .old => levelCheckOld s
  else some .undefined

end Sys2Proof.Machine
end

