-- ==== Sys2Proof/Machine/Cache.lean ====
section
/-!
DEFINITION. The lines of one PA space that the logical cache holds (R21): looking one up, putting one in, dropping one,
and the canonical form.
-/

namespace Sys2Proof.Machine

/-- The entry of a line, if the cache holds it. -/
def CacheBank.lookup : CacheBank → Nat → Option CacheLine
  | [], _ => none
  | e :: c, i => if e.idx = i then some e else CacheBank.lookup c i

/-- Put an entry in, in the place of the one for the same line if there is one. -/
def CacheBank.put : CacheBank → CacheLine → CacheBank
  | [], e => [e]
  | x :: c, e =>
    if e.idx < x.idx then e :: x :: c
    else if x.idx = e.idx then e :: c
    else x :: CacheBank.put c e

/-- Drop a line. -/
def CacheBank.drop (c : CacheBank) (i : Nat) : CacheBank :=
  c.filter (fun e => decide (e.idx ≠ i))

/-- The canonical form: line indices strictly rising. -/
abbrev CacheBank.wf (c : CacheBank) : Prop :=
  c.Pairwise (fun d e => d.idx < e.idx)

end Sys2Proof.Machine
end

