-- ==== Sys2Proof/Machine/Memory.lean ====
section
/-!
DEFINITION. Bytes of one PA space (R22, R30): reading, writing, and the canonical form. Every wider access is built from
the byte accesses here, the byte of offset k at address base plus k (R36).
-/

namespace Sys2Proof.Machine

/-- What a byte that no write has listed reads as. DESIGN CHOICE: 0, the spec gives no contents (R27). Log entry 6. -/
def Memory.unlisted : Byte := 0

/-- The byte at an address. -/
def Memory.read : Memory → Nat → Byte
  | [], _ => Memory.unlisted
  | (k, b) :: m, a => if k = a then b else Memory.read m a

/-- Write one byte; writing what an unlisted byte reads as removes the entry. -/
def Memory.write : Memory → Nat → Byte → Memory
  | [], a, b => if b = Memory.unlisted then [] else [(a, b)]
  | (k, c) :: m, a, b =>
    if a < k then
      if b = Memory.unlisted then (k, c) :: m else (a, b) :: (k, c) :: m
    else if k = a then
      if b = Memory.unlisted then m else (a, b) :: m
    else (k, c) :: Memory.write m a b

/-- `n` bytes from an address up. -/
def Memory.readBytes (m : Memory) (a : Nat) : Nat → List Byte
  | 0 => []
  | n + 1 => m.read a :: Memory.readBytes m (a + 1) n

/-- Write bytes from an address up. -/
def Memory.writeBytes (m : Memory) (a : Nat) : List Byte → Memory
  | [] => m
  | b :: bs => Memory.writeBytes (m.write a b) (a + 1) bs

/-- The canonical form: addresses strictly rising, no entry equal to what an unlisted address reads as. -/
abbrev Memory.wf (m : Memory) : Prop :=
  m.Pairwise (fun c d => c.1 < d.1) ∧ ∀ c ∈ m, c.2 ≠ Memory.unlisted

end Sys2Proof.Machine
end

