-- ==== Sys2Proof/Machine/Operands.lean ====
section
/-!
DEFINITION. The one operand form: a 64-bit register value laid out as NS, NSE, RES0, PA (R17 to R20), and the line a
physical address selects (R33).
-/

namespace Sys2Proof.Machine

/-- The fields of the operand (R17). They are named, never read as a number of two bits (spec/90_conflicts.md C7). -/
structure Operand where
  ns   : BitVec 1
  nse  : BitVec 1
  res0 : BitVec 10
  pa   : PAddr
  deriving DecidableEq, Repr

/-- The fields at the positions of R17. -/
def operandOf (v : Word64) : Operand where
  ns   := v.extractLsb' 63 1
  nse  := v.extractLsb' 62 1
  res0 := v.extractLsb' 52 10
  pa   := v.extractLsb' 0 52

/-- The operand with these fields at the positions of R17. -/
def operandValue (o : Operand) : Word64 := o.ns ++ o.nse ++ o.res0 ++ o.pa

/-- The target PA space that NSE and NS select: Realm when both are set, none (Reserved) otherwise (R18). -/
def targetPAS (nse ns : BitVec 1) : Option PASpace :=
  if nse = 1 ∧ ns = 1 then some .realm else none

/-- `LineOf(pa)`: the index of the line containing the byte (R33). -/
def lineOf (c : Config) (pa : PAddr) : Nat := pa.toNat / c.lineBytes

/-- The line the operand names, none for a Reserved target (R69). RES0 is not looked at (R19). -/
def targetLine (c : Config) (v : Word64) : Option LineId :=
  let o := operandOf v
  match targetPAS o.nse o.ns with
  | some p => some { space := p, idx := lineOf c o.pa }
  | none => none

end Sys2Proof.Machine
end

