-- ==== Sys2Proof/Machine/Ops.lean ====
section
/-!
DEFINITION. The named operations over the state: reading a register, moving the pc, raising an exception, the lines of
memory and cache, issuing and performing a clean-and-invalidate request, and taking the next turn. There is no return from
an exception (R93).
-/

namespace Sys2Proof.Machine

/-! ## One value per PA space -/

/-- The value of one PA space. -/
def Banked.get {α : Type} (b : Banked α) : PASpace → α
  | .nonSecure => b.nonSecure
  | .secure => b.secure
  | .realm => b.realm
  | .root => b.root

/-- Replace the value of one PA space. -/
def Banked.set {α : Type} (b : Banked α) (p : PASpace) (v : α) : Banked α :=
  match p with
  | .nonSecure => { b with nonSecure := v }
  | .secure => { b with secure := v }
  | .realm => { b with realm := v }
  | .root => { b with root := v }

/-! ## Single-field updates: the only ways a step changes a state -/

def State.setPC (s : State) (pc : Word64) : State := { s with pc := pc }

def State.setFault (s : State) (f : Option Fault) : State := { s with fault := f }

def State.setPending (s : State) (q : List LineId) : State := { s with pendingDC := q }

def State.setCache (s : State) (p : PASpace) (c : CacheBank) : State :=
  { s with cache := s.cache.set p c }

def State.setMem (s : State) (p : PASpace) (m : Memory) : State :=
  { s with mem := s.mem.set p m }

def State.setSchedule (s : State) (ts : List Turn) : State := { s with schedule := ts }

def State.setChoices (s : State) (n : Nat) : State := { s with choices := n }

/-! ## Registers, pc, exceptions -/

/-- `x[t]`: a general register, or 0 for register number 31 (R10, R11). Log entry 7. -/
def readX (t : RegNum) (s : State) : Word64 :=
  if h : t.toNat < 31 then s.regs[t.toNat] else 0

/-- `pc <- pc + 4` (R12, R72). -/
def advancePC (s : State) : State := s.setPC (s.pc + 4)

/-- TAKING AN EXCEPTION: record the fault and change nothing else; `pc` keeps the address of the instruction (R86, R91).
The PE takes no step after it (`stepPE`, R26). Log entry 11. -/
def raise (f : Fault) (s : State) : State := s.setFault (some f)

/-! ## Which locations and lines exist -/

/-- Whether the byte exists: it lies in MEM_DOMAIN, and no bit at or above PA_BITS is set (R6, R31). -/
def inDomain (c : Config) (p : PASpace) (a : Nat) : Bool :=
  decide (a < 2 ^ c.paBits) &&
    c.memDomain.any fun r => decide (r.space = p ∧ r.base ≤ a ∧ a < r.base + r.size)

/-- The address of a line's first byte (R33). -/
def lineBase (c : Config) (l : LineId) : Nat := l.idx * c.lineBytes

/-- Whether the line is in MEM_DOMAIN: each of its bytes exists. Log entry 17. -/
def lineExists (c : Config) (l : LineId) : Bool :=
  (List.range c.lineBytes).all fun k => inDomain c l.space (lineBase c l + k)

/-! ## A line in the logical cache and in memory -/

/-- The entry of a line in the logical cache. -/
def cacheEntry (s : State) (l : LineId) : Option CacheLine := (s.cache.get l.space).lookup l.idx

/-- `cached[pas, idx]` (R21). -/
def cached (s : State) (l : LineId) : Option (List Byte) := (cacheEntry s l).map CacheLine.data

/-- `dirty[pas, idx]`, false where `cached` is none (R21). -/
def dirty (s : State) (l : LineId) : Bool :=
  match cacheEntry s l with
  | some e => e.dirty
  | none => false

/-- `mem[pas, idx]` (R22). -/
def memLine (s : State) (l : LineId) : List Byte :=
  (s.mem.get l.space).readBytes (lineBase s.cfg l) s.cfg.lineBytes

/-- The byte of memory at an address of a PA space; none where MEM_DOMAIN has no such location (R22). -/
def memByte (s : State) (p : PASpace) (a : Nat) : Option Byte :=
  if inDomain s.cfg p a then some ((s.mem.get p).read a) else none

/-- `cached <- some d` with `dirty <- b`. -/
def setLine (l : LineId) (d : List Byte) (b : Bool) (s : State) : State :=
  s.setCache l.space ((s.cache.get l.space).put { idx := l.idx, data := d, dirty := b })

/-- `cached <- none` with `dirty <- false`. -/
def dropLine (l : LineId) (s : State) : State :=
  s.setCache l.space ((s.cache.get l.space).drop l.idx)

/-- `mem <- d`: byte k of the line takes byte k of `d`, in one step (R36, R38). Log entry 33. -/
def writeLine (l : LineId) (d : List Byte) (s : State) : State :=
  s.setMem l.space
    ((s.mem.get l.space).writeBytes (lineBase s.cfg l) (d.take s.cfg.lineBytes))

/-! ## Clean and invalidate -/

/-- Clean the line if it is dirty, then drop it: the transition that R24's Evict and R71's PerformDC share. The identity on
a line outside MEM_DOMAIN. -/
def cleanInvalidate (l : LineId) (s : State) : State :=
  if lineExists s.cfg l then
    match cacheEntry s l with
    | none => s
    | some e => dropLine l (if e.dirty then writeLine l e.data s else s)
  else s

/-- `PerformDC(pas, idx)` (R71). -/
def performDC (l : LineId) (s : State) : State := cleanInvalidate l s

/-- The order of the list that holds the multiset of pending requests. Log entry 27. -/
def PASpace.rank : PASpace → Nat
  | .nonSecure => 0
  | .secure => 1
  | .realm => 2
  | .root => 3

/-- By PA space, then by index. -/
def LineId.le (a b : LineId) : Bool :=
  decide (PASpace.rank a.space < PASpace.rank b.space) ||
    (decide (a.space = b.space) && decide (a.idx ≤ b.idx))

/-- Insert one element into the multiset (R23). -/
def pendingInsert (l : LineId) : List LineId → List LineId
  | [] => [l]
  | r :: q => if LineId.le l r then l :: r :: q else r :: pendingInsert l q

/-- `IssueDC(pas, idx)`: a request becomes pending and nothing else changes (R70); under DC_ATOMIC it is performed at once
(R77). Log entry 19. -/
def issueDC (l : LineId) (s : State) : State :=
  if s.cfg.dcAtomic then performDC l s else s.setPending (pendingInsert l s.pendingDC)

/-! ## The scheduler -/

/-- The turn to be taken and the state without it: the first one decided, or a free one when none is (R40). Log entry 21. -/
def takeTurn (s : State) : Turn × State :=
  match s.schedule with
  | t :: ts => (t, s.setSchedule ts)
  | [] => (Config.freeTurn s.choices, s.setChoices (s.choices + 1))

end Sys2Proof.Machine
end

