-- ==== Sys2Proof/Machine/CacheMaintenance.lean ====
section
/-!
DEFINITION. The cache maintenance family, which has one member: DC CIPAE (R65 to R80).
-/

namespace Sys2Proof.Machine

/-- DC_FAULT: the exception the cache operation itself raises on an operand in a state (R88). -/
abbrev DCFault := Word64 → State → Option Fault

/-- The adopted DC_FAULT: the constant none (D17). Log entry 23. -/
def noDCFault : DCFault := fun _ _ => none

/-- The cache operation on an operand that passed every check: a request for the line the operand names, or nothing for a
Reserved target (R69, R70). -/
def requestTarget (v : Word64) (s : State) : State :=
  match targetLine s.cfg v with
  | some l => issueDC l s
  | none => s

/-- DC CIPAE for any DC_FAULT, step by step as R65's pseudocode: access check (R66, R67, R76), operand read (R68),
RES0_STRICT (R19), DC_FAULT (R88), target and request (R69, R70), completion (R72). -/
def dcCipaeWith (dcFault : DCFault) (t : RegNum) (s : State) : Host.Outcome State Fault Refusal :=
  match accessCheck s with
  | some f => .next (raise f s)
  | none =>
    let v := readX t s
    if s.cfg.res0Strict ∧ (operandOf v).res0 ≠ 0 then .refused .res0Operand
    else
      match dcFault v s with
      | some f => .next (raise f s)
      | none => .next (advancePC (requestTarget v s))

/-- `DC CIPAE, <Xt>` (R65). -/
def execDcCipae (t : RegNum) (s : State) : Host.Outcome State Fault Refusal :=
  dcCipaeWith noDCFault t s

end Sys2Proof.Machine
end

