-- ==== Sys2Proof/Machine/PE.lean ====
section
/-!
DEFINITION. The PE: fetching the instruction at `pc` from the program text (R36, R39, R50) and executing it, or having no
step once a fault is recorded (R26).
-/

namespace Sys2Proof.Machine

/-- The byte of the program text at an address: byte `k` of the word that starts `k` bytes below it, little-endian (R36,
R105). None outside the text. -/
def textByte (p : Program) (a : Nat) : Option Byte :=
  if p.base.toNat ≤ a then
    match p.words[(a - p.base.toNat) / 4]? with
    | some w => (bytesOfWord w)[(a - p.base.toNat) % 4]?
    | none => none
  else none

/-- The four bytes of the program text from an address up, none if one of them is outside the text. -/
def textBytes (p : Program) (a : Nat) : Option (List Byte) :=
  match textByte p a, textByte p (a + 1), textByte p (a + 2), textByte p (a + 3) with
  | some b0, some b1, some b2, some b3 => some [b0, b1, b2, b3]
  | _, _, _, _ => none

/-- Fetch and decode the instruction at `pc`. A `pc` that is no multiple of 4, or above 2^64 - 8, is refused (R12); so is
an address with no program word (R110) and a word that is not shown (R59). -/
def fetch (s : State) : Except Refusal Instr :=
  if s.pc.toNat % 4 ≠ 0 then .error .pcMisaligned
  else if 2 ^ 64 - 8 < s.pc.toNat then .error .pcAtTop
  else
    match textBytes s.program s.pc.toNat with
    | none => .error .noProgramWord
    | some bs =>
      match decode bs with
      | .ok (i, _) => .ok i
      | .error _ => .error .notShown

/-- A turn of the PE: the recorded fault once there is one, since the PE then has no further step (R26); otherwise the
instruction at `pc`. -/
def stepPE (s : State) : Host.Outcome State Fault Refusal :=
  match s.fault with
  | some f => .fault f
  | none =>
    match fetch s with
    | .ok i => exec i s
    | .error r => .refused r

/-- A one-word program at `pc`, the PE's turn, and no fault: the launch that R105 describes, for one instruction. -/
def loadWord (w : Word32) (s : State) : State :=
  { s with program := { base := s.pc, words := [w] }, fault := none, schedule := .pe :: s.schedule }

end Sys2Proof.Machine
end

