-- ==== Sys2Proof/Machine/Agents.lean ====
section
/-!
DEFINITION. The two agents beside the PE, the maintenance agent (R23, R71) and the environment agent (R24), and the move of
the agent that has the turn. Neither of the two looks at the fault record: both go on after the PE has stopped (R91). An agent whose turn finds nothing it may do leaves the
state as it is (log entry 21).
-/

namespace Sys2Proof.Machine

/-- The maintenance agent takes one request for the line out of `pendingDC` and performs it (R71). A line with no pending
request is left alone: nothing is performed before it is issued (R40). -/
def maintain (l : LineId) (s : State) : State :=
  if l ∈ s.pendingDC then performDC l (s.setPending (s.pendingDC.erase l)) else s

/-- Fill: a line not cached is cached with what memory holds, clean (R24). -/
def envFill (l : LineId) (s : State) : State :=
  match cached s l with
  | none => setLine l (memLine s l) false s
  | some _ => s

/-- Evict (R24). -/
def envEvict (l : LineId) (s : State) : State := cleanInvalidate l s

/-- CleanBG: a dirty line is written back and stays cached, clean (R24). -/
def envCleanBG (l : LineId) (s : State) : State :=
  match cached s l with
  | none => s
  | some d => if dirty s l then setLine l d false (writeLine l d s) else s

/-- Write: some observer's store leaves the line cached and dirty (R24). -/
def envWrite (l : LineId) (d : List Byte) (s : State) : State :=
  setLine l d true s

/-- WriteThrough: some observer's store to a line not cached goes to memory (R24). -/
def envWriteThrough (l : LineId) (d : List Byte) (s : State) : State :=
  match cached s l with
  | none => writeLine l d s
  | some _ => s

/-- One step of the environment agent on one line of MEM_DOMAIN (R24). A value written is a line's: LINE_BYTES bytes
(log entry 22). -/
def environment (l : LineId) (m : EnvMove) (s : State) : State :=
  if lineExists s.cfg l then
    match m with
    | .fill => envFill l s
    | .evict => envEvict l s
    | .cleanBG => envCleanBG l s
    | .write d => if d.length = s.cfg.lineBytes then envWrite l d s else s
    | .writeThrough d => if d.length = s.cfg.lineBytes then envWriteThrough l d s else s
  else s

/-- The move of the agent that has the turn (R23, R24, R40, R65). It looks at neither of the scheduler's fields. -/
def moveAgent (t : Turn) (s : State) : Host.Outcome State Fault Refusal :=
  match t with
  | .pe => stepPE s
  | .maintenance l => .next (maintain l s)
  | .environment l m => .next (environment l m s)

end Sys2Proof.Machine
end

