-- ==== Sys2Proof/Machine/Step.lean ====
section
/-!
DEFINITION. One step of the machine: the agent whose turn it is moves (R23, R24, R40, R65).
-/

namespace Sys2Proof.Machine

/-- Take the next turn and let that agent move. -/
def step (s : State) : Host.Outcome State Fault Refusal :=
  moveAgent (takeTurn s).1 (takeTurn s).2

/-- The state with the instruction `w` (numbered as the opcode table numbers its bits) as its program, so that the next
step fetches and runs it. Log entry 26. -/
def State.withFetchWord (s : State) (nbits w : Nat) : State :=
  loadWord (BitVec.ofNat 32 (w % 2 ^ nbits)) s

end Sys2Proof.Machine
end

