-- ==== Sys2Proof/Safety.lean ====
section
/-!
DEFINITION. The terms statements are made in: the end of a run (R110), runs and weak fairness (R109), the invariant every
step keeps, the value of a line as its observers see it.
-/

namespace Sys2Proof.Machine

/-- `B + 4 * n`: the address just past the program text (R110). -/
def programEnd (p : Program) : Nat := p.base.toNat + 4 * p.words.length

/-- The end of a run (R110): the PE has run off the end of the text, no fault is recorded, no request is pending. -/
abbrev Final (s : State) : Prop :=
  s.pc.toNat = programEnd s.program ∧ s.fault = none ∧ s.pendingDC = []

/-! ## Runs without end, and fairness -/

/-- `states` is a run in which the agents take the turns of `turns`, one after the other: a run of R40's scheduler with no end.
The PE's turn comes only where the PE has a step. The scheduler's own fields of the states carry no meaning here. -/
def IsRun (turns : Nat → Turn) (states : Nat → State) : Prop :=
  ∀ k, moveAgent (turns k) (states k) = .next (states (k + 1))

/-- At step `k` the maintenance agent performs a pending request for the line (R71). A maintenance turn on a line with no
request is no perform. -/
def Performs (turns : Nat → Turn) (states : Nat → State) (k : Nat) (l : LineId) : Prop :=
  turns k = .maintenance l ∧ l ∈ (states k).pendingDC

/-- WEAK FAIRNESS OF THE MAINTENANCE AGENT (R109): it does not stay enabled from some step on without ever moving. It is
enabled while a request is pending, and its move is a perform. Log entry 32. -/
def WeaklyFair (turns : Nat → Turn) (states : Nat → State) : Prop :=
  ∀ k, (∀ j, k ≤ j → (states j).pendingDC ≠ []) → ∃ j l, k ≤ j ∧ Performs turns states j l

/-! ## Invariants -/

/-- Where a line is cached clean, the cached value is the one memory holds. R24's moves and R71 keep it; a launch state may
break it (spec/95_test_vectors.md, P4), so it is no part of `StateInv`. -/
abbrev CleanAgrees (s : State) : Prop :=
  ∀ p, ∀ e ∈ s.cache.get p, e.dirty = false → e.data = memLine s { space := p, idx := e.idx }

/-- The value of a line as an observer of the caches sees it: the cached value, or memory's where no cache before the PoE
holds the line (R21, R22). -/
def lineValue (s : State) (l : LineId) : List Byte :=
  match cached s l with
  | some d => d
  | none => memLine s l

/-- What every step keeps. -/
structure StateInv (s : State) : Prop where
  /-- The parameters are legal (R6). -/
  cfgOk : s.cfg.wellFormed = true
  /-- The text is placed as R105 says. -/
  programOk : s.program.wellFormed = true
  /-- `pc` is a multiple of 4 (R12). -/
  pcAligned : s.pc.toNat % 4 = 0
  /-- Memory is in canonical form. -/
  memWf : ∀ p, (s.mem.get p).wf
  /-- Memory lists bytes of lines of MEM_DOMAIN only (R22). -/
  memExists : ∀ p, ∀ c ∈ s.mem.get p,
    lineExists s.cfg { space := p, idx := c.1 / s.cfg.lineBytes } = true
  /-- The cache is in canonical form. -/
  cacheWf : ∀ p, (s.cache.get p).wf
  /-- A cached value is LINE_BYTES bytes (R21). -/
  cacheLength : ∀ p, ∀ e ∈ s.cache.get p, e.data.length = s.cfg.lineBytes
  /-- Outside MEM_DOMAIN nothing is cached (R22). -/
  cacheExists : ∀ p, ∀ e ∈ s.cache.get p, lineExists s.cfg { space := p, idx := e.idx } = true
  /-- The pending requests are listed in order (log entry 27). -/
  pendingSorted : s.pendingDC.Pairwise (fun a b => LineId.le a b = true)
  /-- Under DC_ATOMIC nothing is ever pending (R23). -/
  atomicEmpty : s.cfg.dcAtomic = true → s.pendingDC = []
  /-- A trap is recorded under the old edition only, and with the page's number (R26). -/
  trapOldOnly : ∀ ec, s.fault = some (.trapToEL2 ec) →
    s.cfg.edition = .old ∧ ec = systemAccessEC

/-- A launch state as R105 and R27 admit it: legal parameters, the text placed at an aligned base with `pc` at it, no fault
recorded, and stores that R21 to R23 allow. Registers, level, Security state, cached values, memory bytes and turns are free. -/
structure Launch (s : State) : Prop where
  cfgOk : s.cfg.wellFormed = true
  programOk : s.program.wellFormed = true
  pcAtBase : s.pc = s.program.base
  noFault : s.fault = none
  memWf : ∀ p, (s.mem.get p).wf
  memExists : ∀ p, ∀ c ∈ s.mem.get p,
    lineExists s.cfg { space := p, idx := c.1 / s.cfg.lineBytes } = true
  cacheWf : ∀ p, (s.cache.get p).wf
  cacheLength : ∀ p, ∀ e ∈ s.cache.get p, e.data.length = s.cfg.lineBytes
  cacheExists : ∀ p, ∀ e ∈ s.cache.get p, lineExists s.cfg { space := p, idx := e.idx } = true
  pendingSorted : s.pendingDC.Pairwise (fun a b => LineId.le a b = true)
  atomicEmpty : s.cfg.dcAtomic = true → s.pendingDC = []

end Sys2Proof.Machine
end

