-- ==== Sys2Proof/Certificates/Slice0/Obligations.lean ====
section
/-!
DEFINITION. The statements for the provers. `takeTurn s = (t, s')` reads: the turn to be taken in `s` is `t`, and `s'` is
`s` with that turn taken off the scheduler. Rules are named in the docstrings; a clause that rests on a decision of the spec
(D<n>) or a choice of the model names its log entry.
-/

open Sys2Proof Sys2Proof.Machine

/-! ## Encoding -/

/-- Decoding gives an instruction and the bytes after it exactly when the bytes are that instruction's encoding followed by
them: nothing is dropped, and no other bytes decode (R50, R53, R59). The word layout of R52 is PRESUMED, log entry 10. -/
def Obligations.DecodeInvertsEncodeExactly : Prop :=
  ∀ (bs : List Byte) (i : Instr) (rest : List Byte),
    decode bs = .ok (i, rest) ↔ i.wellFormed = true ∧ bs = encode i ++ rest

/-- A word is DC CIPAE with `t = w[4:0]` exactly when it matches under the mask, and is not shown otherwise (R53, R59; log
entry 10). -/
def Obligations.WordIsDcCipaeExactlyUnderMask : Prop :=
  ∀ w : Word32,
    (w &&& 0xFFFFFFE0 = 0xD50C7E00 → decodeWord w = .ok (.dcCipae (w.extractLsb' 0 5))) ∧
    (w &&& 0xFFFFFFE0 ≠ 0xD50C7E00 → decodeWord w = .error .notShown)

/-- The 32 words are 0xD50C7E00 + t, stored least significant byte first (R36, R53; log entries 9 and 10). -/
def Obligations.EncodedWordsAreConsecutiveAndLittleEndian : Prop :=
  ∀ t : RegNum,
    encodeWord (.dcCipae t) = 0xD50C7E00 + t.setWidth 32 ∧
    encode (.dcCipae t) = [t.setWidth 8, 0x7E, 0x0C, 0xD5]

/-- Words written out bit by bit from R51 and R52 decode to the instruction they stand for, and the nine neighbours of
spec/95_test_vectors.md 2.1, which differ in op2 (twice), CRm, CRn, op1 (twice), op0, L and bit 31, are not shown (log entry
10). A sanity statement. -/
def Obligations.SpecWordsDecodeAndNeighboursDoNot : Prop :=
  decodeWord 0b1101010100_0_01_100_0111_1110_000_00000 = .ok (.dcCipae 0) ∧
  decodeWord 0b1101010100_0_01_100_0111_1110_000_10001 = .ok (.dcCipae 17) ∧
  decodeWord 0b1101010100_0_01_100_0111_1110_000_11111 = .ok (.dcCipae 31) ∧
  decodeWord 0b1101010100_0_01_100_0111_1110_001_00000 = .error .notShown ∧
  decodeWord 0b1101010100_0_01_100_0111_1110_111_00000 = .error .notShown ∧
  decodeWord 0b1101010100_0_01_100_0111_1010_000_00000 = .error .notShown ∧
  decodeWord 0b1101010100_0_01_100_0110_1110_000_00000 = .error .notShown ∧
  decodeWord 0b1101010100_0_01_000_0111_1110_000_00000 = .error .notShown ∧
  decodeWord 0b1101010100_0_01_011_0111_1110_000_00000 = .error .notShown ∧
  decodeWord 0b1101010100_0_10_100_0111_1110_000_00000 = .error .notShown ∧
  decodeWord 0b1101010100_1_01_100_0111_1110_000_00000 = .error .notShown ∧
  decodeWord 0b0101010100_0_01_100_0111_1110_000_00000 = .error .notShown

/-! ## The operand -/

/-- R17: NS [63], NSE [62], bits [61:52] and PA [51:0] cover the operand with no gap and no overlap, each at its mask. -/
def Obligations.OperandFieldsTileTheValue : Prop :=
  ∀ v : Word64,
    operandValue (operandOf v) = v ∧
    v &&& 0x8000000000000000 = (operandOf v).ns.setWidth 64 <<< 63 ∧
    v &&& 0x4000000000000000 = (operandOf v).nse.setWidth 64 <<< 62 ∧
    v &&& 0x3FF0000000000000 = (operandOf v).res0.setWidth 64 <<< 52 ∧
    v &&& 0x000FFFFFFFFFFFFF = (operandOf v).pa.setWidth 64

/-- R18: the target is Realm at NSE = 1, NS = 1 and Reserved at the three other points, so the operand names a line of the
Realm space there and names no line, which would be cleaned and invalidated, anywhere else. -/
def Obligations.TargetSpaceIsRealmOnlyAtBothBits : Prop :=
  targetPAS 1 1 = some .realm ∧ targetPAS 0 0 = none ∧ targetPAS 0 1 = none ∧
    targetPAS 1 0 = none ∧
  ∀ (c : Config) (v : Word64),
    ((operandOf v).nse = 1 ∧ (operandOf v).ns = 1 → ∃ l, targetLine c v = some l ∧ l.space = .realm) ∧
    (¬ ((operandOf v).nse = 1 ∧ (operandOf v).ns = 1) → targetLine c v = none)

/-- The line index is the PA divided by LINE_BYTES: the one line whose addresses contain the PA, the PA's bits from
log2(LINE_BYTES) up (R33, decision D12; log entry 16). -/
def Obligations.LineOfIsTheLineContainingThePA : Prop :=
  ∀ (c : Config) (pa : PAddr),
    lineOf c pa = pa.toNat >>> c.lineShift ∧
    ∀ idx, (idx * c.lineBytes ≤ pa.toNat ∧ pa.toNat < (idx + 1) * c.lineBytes) ↔ idx = lineOf c pa

/-- Two operands with the same NSE and NS whose PAs lie in the same line act alike, whatever their other bits (R19, R33;
decisions D10 and D12, log entries 14 and 16): executed in states that differ in the registers alone, they end in states
that differ in the registers alone. -/
def Obligations.OperandsNamingOneLineActAlike : Prop :=
  ∀ (s : State) (r r' : Vector Word64 31) (t t' : RegNum) (v v' : Word64),
    s.cfg.res0Strict = false →
    readX t { s with regs := r } = v → readX t' { s with regs := r' } = v' →
    (operandOf v).ns = (operandOf v').ns → (operandOf v).nse = (operandOf v').nse →
    (operandOf v).pa.toNat / s.cfg.lineBytes = (operandOf v').pa.toNat / s.cfg.lineBytes →
    ∃ u : State, exec (.dcCipae t) { s with regs := r } = .next { u with regs := r } ∧
      exec (.dcCipae t') { s with regs := r' } = .next { u with regs := r' }

/-! ## Who may execute -/

/-- R67, every row of its table: with FEAT_MEC, at EL0 and EL1 Undefined, at EL2 Undefined unless Realm, at EL2 in Realm and
at EL3 no exception; and the first row, without FEAT_MEC Undefined. -/
def Obligations.AccessTableOfTheNewEdition : Prop :=
  ∀ s : State, s.cfg.edition = .new →
    (s.cfg.featMec = false → accessCheck s = some .undefined) ∧
    (s.cfg.featMec = true →
      (s.el = .el0 → accessCheck s = some .undefined) ∧
      (s.el = .el1 → accessCheck s = some .undefined) ∧
      (s.el = .el2 → s.ss ≠ .realm → accessCheck s = some .undefined) ∧
      (s.el = .el2 → s.ss = .realm → accessCheck s = none) ∧
      (s.el = .el3 → accessCheck s = none))

/-- R76, every row of its table. -/
def Obligations.AccessTableOfTheOldEdition : Prop :=
  ∀ s : State, s.cfg.edition = .old →
    (s.cfg.featMec = false → accessCheck s = some .undefined) ∧
    (s.cfg.featMec = true →
      (s.el = .el0 → accessCheck s = some .undefined) ∧
      (s.el = .el1 → (s.el2Enabled = true ∧ s.hcrEl2Nv = 1) →
        accessCheck s = some (.trapToEL2 0x18)) ∧
      (s.el = .el1 → ¬ (s.el2Enabled = true ∧ s.hcrEl2Nv = 1) →
        accessCheck s = some .undefined) ∧
      (s.el = .el2 → accessCheck s = none) ∧
      (s.el = .el3 → accessCheck s = none))

/-- The word of each DC CIPAE, 0xD50C7E00 + t, decodes whatever the configuration (the decoder is not given it), and without
FEAT_MEC its execution raises Undefined at every level and Security state, under either edition, whatever the operand (R58).
The word is that of the layout of R52, PRESUMED, log entry 10; what raising does is FailedCheckRecordsTheFaultAndNothingElse. -/
def Obligations.AbsentFeatureDecodesAndIsUndefined : Prop :=
  ∀ (t : RegNum) (s : State), s.cfg.featMec = false →
    decodeWord (0xD50C7E00 + t.setWidth 32) = .ok (.dcCipae t) ∧
    exec (.dcCipae t) s = .next (raise .undefined s)

/-- R94: under the new edition no execution traps to a higher level, and at EL1 the check ends in Undefined whatever the
hypervisor's inputs; under the old edition an EL1 execution with EL2Enabled and NV = 1 is a trap to EL2; no other control
enters the check, which FEAT_MEC, the edition, the level, the Security state and those two inputs determine. -/
def Obligations.NoTrapToAHigherLevelInTheNewEdition : Prop :=
  (∀ (s : State) (ec : Nat), s.cfg.edition = .new → accessCheck s ≠ some (.trapToEL2 ec)) ∧
  (∀ s : State, s.cfg.edition = .new → s.el = .el1 → ∀ (e : Bool) (nv : BitVec 1),
    accessCheck { s with el2Enabled := e, hcrEl2Nv := nv } = some .undefined) ∧
  (∀ s : State, s.cfg.edition = .old → s.cfg.featMec = true → s.el = .el1 → s.el2Enabled = true →
    s.hcrEl2Nv = 1 → accessCheck s = some (.trapToEL2 systemAccessEC)) ∧
  (∀ s s' : State, s'.cfg.featMec = s.cfg.featMec → s'.cfg.edition = s.cfg.edition → s'.el = s.el →
    s'.ss = s.ss → s'.el2Enabled = s.el2Enabled → s'.hcrEl2Nv = s.hcrEl2Nv →
    accessCheck s' = accessCheck s)

/-- R95: EL0 and EL1 never execute DC CIPAE, EL2 only in Realm, EL3 always (where FEAT_MEC is implemented at all), and no step
of the machine changes PSTATE.EL. -/
def Obligations.LevelsThatMayExecuteAndNeverChange : Prop :=
  (∀ s : State, s.cfg.edition = .new →
    (accessCheck s = none ↔
      s.cfg.featMec = true ∧ ((s.el = .el2 ∧ s.ss = .realm) ∨ s.el = .el3))) ∧
  (∀ s u : State, step s = .next u → u.el = s.el)

/-! ## DC CIPAE -/

/-- A failed access check records its exception and changes nothing else: no register is read, no request is issued, `pc`
stays (R66, R86, R91, R92; decisions D6 and D19, log entry 11). -/
def Obligations.FailedCheckRecordsTheFaultAndNothingElse : Prop :=
  ∀ (t : RegNum) (s : State) (f : Fault), accessCheck s = some f →
    exec (.dcCipae t) s = .next { s with fault := some f }

/-- Under the new edition, from a state with no fault recorded: DC CIPAE ends with Undefined recorded exactly for the four
causes, and with no fault or Undefined always (R85, R86; decision D6, log entry 11). -/
def Obligations.UndefinedExactlyForItsCauses : Prop :=
  ∀ (t : RegNum) (s u : State), s.cfg.edition = .new → s.fault = none →
    exec (.dcCipae t) s = .next u →
    (u.fault = some .undefined ↔
      s.cfg.featMec = false ∨ s.el = .el0 ∨ s.el = .el1 ∨ (s.el = .el2 ∧ s.ss ≠ .realm)) ∧
    (u.fault = none ∨ u.fault = some .undefined)

/-- The old edition's trap is recorded with the number 0x18, and FEAT_MEC is tested before it (R87, R90; decisions D24 and
D30, log entries 28 and 29). -/
def Obligations.OldEditionTrapIsRecorded : Prop :=
  ∀ (t : RegNum) (s : State), s.cfg.edition = .old → s.el = .el1 → s.el2Enabled = true →
    s.hcrEl2Nv = 1 →
    exec (.dcCipae t) s =
      .next { s with fault := some (if s.cfg.featMec then .trapToEL2 0x18 else .undefined) }

/-- COMPLETION of DC CIPAE for a Realm target, under the conditions of R106: the request for the line containing the PA
becomes pending and `pc` moves on, nothing else changes (R65, R69, R70, R72; decisions D3, D10 and D14, log entries 8, 14
and 19). -/
def Obligations.DcCipaeIssuesARequestForTheRealmLine : Prop :=
  ∀ (t : RegNum) (s : State) (o : Operand), s.cfg.featMec = true →
    (s.el = .el3 ∨ (s.el = .el2 ∧ (s.ss = .realm ∨ s.cfg.edition = .old))) →
    s.cfg.dcAtomic = false → operandOf (readX t s) = o →
    (s.cfg.res0Strict = true → o.res0 = 0) → o.nse = 1 → o.ns = 1 →
    exec (.dcCipae t) s = .next { s with
      pendingDC := pendingInsert { space := .realm, idx := o.pa.toNat / s.cfg.lineBytes } s.pendingDC
      pc := s.pc + 4 }

/-- COMPLETION of DC CIPAE for a Reserved target, under either edition: `pc` moves on and nothing else changes (R69, R72,
R78; decisions D3 and D15, log entries 8 and 20). -/
def Obligations.DcCipaeWithAReservedTargetOnlyAdvances : Prop :=
  ∀ (t : RegNum) (s : State) (o : Operand), accessCheck s = none → operandOf (readX t s) = o →
    (s.cfg.res0Strict = true → o.res0 = 0) → ¬ (o.nse = 1 ∧ o.ns = 1) →
    exec (.dcCipae t) s = .next { s with pc := s.pc + 4 }

/-- DC CIPAE, XZR executes as with operand 0: a Reserved target, no request, whatever the switches and the registers (R11,
R54, R78; decisions D2 and D15, log entries 7 and 20). -/
def Obligations.DcCipaeXzrOnlyAdvances : Prop :=
  ∀ s : State, accessCheck s = none →
    exec (.dcCipae 31) s = .next { s with pc := s.pc + 4 }

/-- The other 31 register numbers read `x[t]`, all 64 bits (R10, R68; decision D2, log entry 7). -/
def Obligations.OperandIsTheNamedRegister : Prop :=
  ∀ (s : State) (n : Nat) (h : n < 31), readX (BitVec.ofNat 5 n) s = s.regs[n]

/-- Under RES0_STRICT an operand with one of bits [61:52] set is refused once the access check has passed; without the
switch DC CIPAE is never refused (R19; decision D10, log entry 14). -/
def Obligations.Res0OperandsAreRefusedOnlyUnderTheSwitch : Prop :=
  (∀ (t : RegNum) (s : State), s.cfg.res0Strict = true → accessCheck s = none →
    (operandOf (readX t s)).res0 ≠ 0 → exec (.dcCipae t) s = .refused .res0Operand) ∧
  (∀ (t : RegNum) (s : State), s.cfg.res0Strict = false → ∃ u, exec (.dcCipae t) s = .next u)

/-- The hook of R88, for every DC_FAULT: a failed access check comes before it, and so does the refusal of RES0_STRICT; an
answer is recorded with no request issued and `pc` not advanced; where it answers nothing DC CIPAE is as with the adopted
constant none (R65; decisions D10 and D17, log entries 14 and 23). -/
def Obligations.DcFaultHookIsConsultedAfterTheChecks : Prop :=
  ∀ (hook : DCFault) (t : RegNum) (s : State),
    (∀ f, accessCheck s = some f → dcCipaeWith hook t s = .next { s with fault := some f }) ∧
    (accessCheck s = none → s.cfg.res0Strict = true → (operandOf (readX t s)).res0 ≠ 0 →
      dcCipaeWith hook t s = .refused .res0Operand) ∧
    (∀ f, accessCheck s = none → (s.cfg.res0Strict = true → (operandOf (readX t s)).res0 = 0) →
      hook (readX t s) s = some f → dcCipaeWith hook t s = .next { s with fault := some f }) ∧
    (hook (readX t s) s = none → dcCipaeWith hook t s = exec (.dcCipae t) s)

/-- COMPLETION of DC CIPAE for a Realm target under DC_ATOMIC: in the one step the line is cleaned and invalidated, nothing
becomes pending and `pc` moves on (R71, R77; decisions D3, D13 and D14, log entries 8, 18 and 19). -/
def Obligations.AtomicDcCipaeCleansTheLineAtOnce : Prop :=
  ∀ (t : RegNum) (s : State) (l : LineId), StateInv s → accessCheck s = none →
    (s.cfg.res0Strict = true → (operandOf (readX t s)).res0 = 0) → s.cfg.dcAtomic = true →
    targetLine s.cfg (readX t s) = some l → lineExists s.cfg l = true →
    ∃ u, exec (.dcCipae t) s = .next u ∧ u.pc = s.pc + 4 ∧ u.fault = s.fault ∧ u.pendingDC = [] ∧
      cached u l = none ∧ dirty u l = false ∧
      (∀ d, cached s l = some d → dirty s l = true → memLine u l = d) ∧
      (dirty s l = false → memLine u l = memLine s l)

/-- Issuing and then performing at once is what DC_ATOMIC does in one step: where the requested line is pending in no other
request or in others, the two-step result is the one-step result with the switch set (R77; decision D14, log entry 19). -/
def Obligations.AtomicCompletionIsIssueThenPerform : Prop :=
  ∀ (t : RegNum) (s u : State) (l : LineId), s.cfg.dcAtomic = false → accessCheck s = none →
    targetLine s.cfg (readX t s) = some l → exec (.dcCipae t) s = .next u →
    exec (.dcCipae t) { s with cfg := { s.cfg with dcAtomic := true } } =
      .next { maintain l u with cfg := { s.cfg with dcAtomic := true } }

/-- FRAME of DC CIPAE, on every path that gives a next state: no register, no PSTATE field, no Security state, no control
input, no parameter, no program word and no turn changes; only the line named by the operand can change in the caches and in
memory, and that only under DC_ATOMIC: every byte outside it, and every byte when the switch is off, reads as before (R14,
R38, R72, R75). -/
def Obligations.DcCipaeFrame : Prop :=
  ∀ (t : RegNum) (s u : State), exec (.dcCipae t) s = .next u →
    u.regs = s.regs ∧ u.el = s.el ∧ u.ss = s.ss ∧ u.el2Enabled = s.el2Enabled ∧
    u.hcrEl2Nv = s.hcrEl2Nv ∧ u.cfg = s.cfg ∧ u.program = s.program ∧ u.schedule = s.schedule ∧
    u.choices = s.choices ∧
    (s.cfg.dcAtomic = false ∨ targetLine s.cfg (readX t s) = none →
      u.cache = s.cache ∧ ∀ p a, memByte u p a = memByte s p a) ∧
    (∀ l, targetLine s.cfg (readX t s) = some l →
      (∀ l', l' ≠ l → cached u l' = cached s l' ∧ dirty u l' = dirty s l') ∧
      ∀ p a, p ≠ l.space ∨ a < lineBase s.cfg l ∨ lineBase s.cfg l + s.cfg.lineBytes ≤ a →
        memByte u p a = memByte s p a)

/-- DC CIPAE completes all of its effects or none (R92). Where the access check fails, the fault is recorded and nothing else
changes. Where it passes, `pc` moves on and the request is made, whole: without DC_ATOMIC one request for the operand's line
is inserted, none for a Reserved target; with DC_ATOMIC that line is performed, no line for a Reserved target; nothing else
changes (decisions D3, D6, D14 and D15, log entries 8, 11, 19 and 20). -/
def Obligations.DcCipaeIsPrecise : Prop :=
  ∀ (t : RegNum) (s u : State), exec (.dcCipae t) s = .next u →
    (∃ f, accessCheck s = some f ∧ u = { s with fault := some f }) ∨
    (accessCheck s = none ∧
      match targetLine s.cfg (readX t s) with
      | none => u = { s with pc := s.pc + 4 }
      | some l =>
        u = if s.cfg.dcAtomic then { performDC l s with pc := s.pc + 4 }
          else { s with pc := s.pc + 4, pendingDC := pendingInsert l s.pendingDC })

/-- DC CIPAE takes no data from a cache or from memory: with other contents it takes the same path, and while DC_ATOMIC is
off it leaves those contents alone (R30, R38, R75). -/
def Obligations.DcCipaeSeesNoCacheOrMemory : Prop :=
  ∀ (t : RegNum) (s : State) (c : Banked CacheBank) (m : Banked Memory),
    s.cfg.dcAtomic = false →
    (∀ u, exec (.dcCipae t) s = .next u →
      exec (.dcCipae t) { s with cache := c, mem := m } = .next { u with cache := c, mem := m }) ∧
    (∀ r, exec (.dcCipae t) s = .refused r →
      exec (.dcCipae t) { s with cache := c, mem := m } = .refused r)

/-! ## The PE -/

/-- A STEP RUNS THE DECODED INSTRUCTION: when it is the PE's turn, no fault is recorded and the four bytes of the text at a
`pc` that is fetched from decode to `i`, the step is exec of `i` on the state with the turn taken (R12, R50; log entries 8, 9
and 21). -/
def Obligations.StepRunsTheDecodedInstruction : Prop :=
  ∀ (s s' : State) (bs rest : List Byte) (i : Instr), takeTurn s = (.pe, s') → s.fault = none →
    s.pc.toNat % 4 = 0 → s.pc.toNat ≤ 2 ^ 64 - 8 →
    textBytes s.program s.pc.toNat = some bs → decode bs = .ok (i, rest) →
    step s = exec i s'

/-- A word of the program text runs when `pc` is its address: word `k` lies at B + 4k, low byte first (R36, R105; log
entries 9 and 26). -/
def Obligations.PlacedInstructionRuns : Prop :=
  ∀ (s s' : State) (k : Nat) (i : Instr), takeTurn s = (.pe, s') → s.fault = none →
    s.program.wellFormed = true → s.program.words[k]? = some (encodeWord i) →
    s.pc.toNat = s.program.base.toNat + 4 * k →
    step s = exec i s'

/-- The next turn is the first one decided; when none is decided it is the free value at the counter, which moves on. Only the
scheduler's own fields change (R40; log entry 21). -/
def Obligations.TurnsComeFromTheScheduleThenFree : Prop :=
  (∀ (s : State) (t : Turn) (ts : List Turn), s.schedule = t :: ts → takeTurn s = (t, { s with schedule := ts })) ∧
  (∀ s : State, s.schedule = [] →
    takeTurn s = (Config.freeTurn s.choices, { s with choices := s.choices + 1 }))

/-- Where the PE's turn is refused: a misaligned `pc`, a `pc` above 2^64 - 8, a `pc` with no program word, a word that is not
shown (R12, R37, R59; decisions D3, D4 and D5, log entries 8, 10 and 26). -/
def Obligations.RefusedFetches : Prop :=
  ∀ s s' : State, takeTurn s = (.pe, s') → s.fault = none →
    (s.pc.toNat % 4 ≠ 0 → step s = .refused .pcMisaligned) ∧
    (s.pc.toNat % 4 = 0 → 2 ^ 64 - 8 < s.pc.toNat → step s = .refused .pcAtTop) ∧
    (s.pc.toNat % 4 = 0 → s.pc.toNat ≤ 2 ^ 64 - 8 → textBytes s.program s.pc.toNat = none →
      step s = .refused .noProgramWord) ∧
    (∀ w, s.pc.toNat % 4 = 0 → s.pc.toNat ≤ 2 ^ 64 - 8 →
      textBytes s.program s.pc.toNat = some (bytesOfWord w) → w &&& 0xFFFFFFE0 ≠ 0xD50C7E00 →
      step s = .refused .notShown)

/-- Once a fault is recorded the PE has no further step: its turn answers that fault (R26; decisions D6 and D19, log
entry 11). -/
def Obligations.StoppedPEHasNoStep : Prop :=
  ∀ (s s' : State) (f : Fault), takeTurn s = (.pe, s') → s.fault = some f → step s = .fault f

/-- A fault record is never cleared or changed by a step, and `pc` then stays at the instruction that raised it, while the
other agents go on: their turns always give a next state (R26, R91; decision D19, log entry 11). -/
def Obligations.FaultRecordIsNeverCleared : Prop :=
  (∀ (s u : State) (f : Fault), s.fault = some f → step s = .next u →
    u.fault = some f ∧ u.pc = s.pc) ∧
  (∀ s : State, (takeTurn s).1 ≠ .pe → ∃ u, step s = .next u)

/-! ## The maintenance agent -/

/-- The perform step (R71, and the promise of R44; decisions D13 and D14, log entries 18 and 19): the line is uncached and
not dirty, memory holds the value cached just before if that was dirty and is unchanged otherwise, and the request is gone. -/
def Obligations.PerformCleansAndInvalidates : Prop :=
  ∀ (s s' : State) (l : LineId), StateInv s → takeTurn s = (.maintenance l, s') → l ∈ s.pendingDC →
    lineExists s.cfg l = true →
    ∃ u, step s = .next u ∧ cached u l = none ∧ dirty u l = false ∧
      u.pendingDC = s.pendingDC.erase l ∧
      (∀ d, cached s l = some d → dirty s l = true → memLine u l = d) ∧
      (dirty s l = false → memLine u l = memLine s l)

/-- FRAME of the perform step: every other line is cached as it was, every byte outside the line reads as before, and the
registers, `pc`, status, parameters, program and fault record stay (R44, R71). -/
def Obligations.PerformChangesOneLineOnly : Prop :=
  ∀ (s s' u : State) (l : LineId), takeTurn s = (.maintenance l, s') → step s = .next u →
    u.regs = s.regs ∧ u.pc = s.pc ∧ u.el = s.el ∧ u.ss = s.ss ∧ u.el2Enabled = s.el2Enabled ∧
    u.hcrEl2Nv = s.hcrEl2Nv ∧ u.cfg = s.cfg ∧ u.program = s.program ∧ u.fault = s.fault ∧
    (∀ l', l' ≠ l → cached u l' = cached s l' ∧ dirty u l' = dirty s l') ∧
    ∀ p a, p ≠ l.space ∨ a < lineBase s.cfg l ∨ lineBase s.cfg l + s.cfg.lineBytes ≤ a →
      memByte u p a = memByte s p a

/-- A request for a line outside MEM_DOMAIN is consumed and changes nothing else (R31, R71; decision D11, log entry 15). -/
def Obligations.PerformOutsideTheDomainIsTheIdentity : Prop :=
  ∀ (s s' : State) (l : LineId), takeTurn s = (.maintenance l, s') → l ∈ s.pendingDC →
    lineExists s.cfg l = false →
    step s = .next { s' with pendingDC := s.pendingDC.erase l }

/-- Nothing is performed before it is issued: the maintenance agent's turn on a line with no pending request changes
nothing (R40; decision D14, log entry 21). -/
def Obligations.NothingIsPerformedBeforeItIsIssued : Prop :=
  ∀ (s s' : State) (l : LineId), takeTurn s = (.maintenance l, s') → l ∉ s.pendingDC →
    step s = .next s'

/-- Performing twice in succession equals performing once (R79; decision D13, log entry 18). -/
def Obligations.PerformIsIdempotent : Prop :=
  ∀ (s : State) (l : LineId), performDC l (performDC l s) = performDC l s

/-- The maintenance agent's turn is the environment's Evict of the same line, forced, with the request taken out (R71;
decision D13, log entry 18). -/
def Obligations.PerformIsAForcedEvict : Prop :=
  ∀ (s : State) (l : LineId) (ts : List Turn) (u : State), l ∈ s.pendingDC →
    step { s with schedule := .environment l .evict :: ts } = .next u →
    step { s with schedule := .maintenance l :: ts } =
      .next { u with pendingDC := s.pendingDC.erase l }

/-- Two requests may be performed in either order: any two orders of the same maintenance turns end in the same state (R40;
decisions D14 and D22, log entry 19). -/
def Obligations.MaintenanceOrderIsIrrelevant : Prop :=
  ∀ (s : State) (ls ls' : List LineId) (ts : List Turn), StateInv s → ls.Perm ls' →
    Host.Core.run core ls.length { s with schedule := ls.map .maintenance ++ ts } =
      Host.Core.run core ls'.length { s with schedule := ls'.map .maintenance ++ ts }

/-- When the maintenance agent gets a turn for each pending request, in whatever order, nothing is pending at the end and every
line asked for that exists is uncached: the bounded form of R109's fairness (decision D14, log entry 32). -/
def Obligations.EveryRequestIsPerformedGivenItsTurn : Prop :=
  ∀ (s : State) (ls : List LineId) (ts : List Turn), ls.Perm s.pendingDC →
    ∃ u, Host.Core.run core ls.length { s with schedule := ls.map .maintenance ++ ts } = .next u ∧
      u.pendingDC = [] ∧ u.schedule = ts ∧
      ∀ l ∈ ls, lineExists s.cfg l = true → cached u l = none ∧ dirty u l = false

/-! ## The environment agent -/

/-- Fill of a line not cached: it is cached with what memory holds, clean (R24; decision D13, log entries 18 and 22). -/
def Obligations.FillCachesWhatMemoryHolds : Prop :=
  ∀ (s s' : State) (l : LineId), takeTurn s = (.environment l .fill, s') →
    lineExists s.cfg l = true → cached s l = none →
    ∃ u, step s = .next u ∧ cached u l = some (memLine s l) ∧ dirty u l = false ∧ u.mem = s.mem

/-- Evict of a cached line: memory takes a dirty value, and the line is uncached (R24; log entries 18 and 22). -/
def Obligations.EvictWritesBackAndDrops : Prop :=
  ∀ (s s' : State) (l : LineId) (d : List Byte), StateInv s →
    takeTurn s = (.environment l .evict, s') → lineExists s.cfg l = true → cached s l = some d →
    ∃ u, step s = .next u ∧ cached u l = none ∧ dirty u l = false ∧
      memLine u l = if dirty s l then d else memLine s l

/-- CleanBG of a dirty line: memory takes its value, and the line stays cached with it, clean (R24; log entries 18 and 22). -/
def Obligations.CleanBGWritesBackAndKeeps : Prop :=
  ∀ (s s' : State) (l : LineId) (d : List Byte), StateInv s →
    takeTurn s = (.environment l .cleanBG, s') → lineExists s.cfg l = true →
    cached s l = some d → dirty s l = true →
    ∃ u, step s = .next u ∧ cached u l = some d ∧ dirty u l = false ∧ memLine u l = d

/-- Write: the line is cached with the value written, dirty, and memory stays (R24; log entries 18 and 22). -/
def Obligations.WriteLeavesTheLineDirty : Prop :=
  ∀ (s s' : State) (l : LineId) (d : List Byte), takeTurn s = (.environment l (.write d), s') →
    lineExists s.cfg l = true → d.length = s.cfg.lineBytes →
    ∃ u, step s = .next u ∧ cached u l = some d ∧ dirty u l = true ∧ u.mem = s.mem

/-- WriteThrough to a line not cached: memory takes the value, and the line stays uncached (R24; log entries 18 and 22). -/
def Obligations.WriteThroughReachesMemory : Prop :=
  ∀ (s s' : State) (l : LineId) (d : List Byte), StateInv s →
    takeTurn s = (.environment l (.writeThrough d), s') → lineExists s.cfg l = true →
    d.length = s.cfg.lineBytes → cached s l = none →
    ∃ u, step s = .next u ∧ memLine u l = d ∧ u.cache = s.cache

/-- FRAME of the environment agent: it changes one line's cache entry and bytes and nothing else, pending requests, PE and
fault record included. A move that is not enabled changes nothing but the turn taken: any move on a line outside MEM_DOMAIN,
Fill of a cached line, Evict of a line not cached, CleanBG of a line not dirty, WriteThrough to a cached line, a value of
another length than a line's (R24; log entries 21 and 22). -/
def Obligations.EnvironmentChangesOneLineOnly : Prop :=
  ∀ (s s' : State) (l : LineId) (m : EnvMove), takeTurn s = (.environment l m, s') →
    ∃ u, step s = .next u ∧ u = { s' with cache := u.cache, mem := u.mem } ∧
      (lineExists s.cfg l = false → u = s') ∧
      (m = .fill → cached s l ≠ none → u = s') ∧
      (m = .evict → cached s l = none → u = s') ∧
      (m = .cleanBG → dirty s l = false → u = s') ∧
      (∀ d, m = .writeThrough d → cached s l ≠ none → u = s') ∧
      (∀ d, m = .write d ∨ m = .writeThrough d → d.length ≠ s.cfg.lineBytes → u = s') ∧
      (∀ l', l' ≠ l → cached u l' = cached s l' ∧ dirty u l' = dirty s l') ∧
      ∀ p a, p ≠ l.space ∨ a < lineBase s.cfg l ∨ lineBase s.cfg l + s.cfg.lineBytes ≤ a →
        memByte u p a = memByte s p a

/-- The invalidate is not durable: after a perform, the environment's Fill brings the line back, clean and equal to memory
(R44, R79, R108; decision D13, log entry 18). -/
def Obligations.InvalidateIsNotDurable : Prop :=
  ∀ (s : State) (l : LineId) (ts : List Turn), l ∈ s.pendingDC → lineExists s.cfg l = true →
    ∃ u, Host.Core.run core 2
        { s with schedule := .maintenance l :: .environment l .fill :: ts } = .next u ∧
      cached u l = some (memLine u l) ∧ dirty u l = false ∧ u.pendingDC = s.pendingDC.erase l

/-! ## The whole machine -/

/-- What State.reset leaves, every field. `pendingDC` empty and `fault` none are R27's; the rest is the model's choice: the
parameters (log entry 3), registers, pc and the old edition's inputs (log entry 4), level and Security state (log entry 5),
memory and caches (log entry 6), the scheduler (log entry 21), the program text (log entry 26). -/
def Obligations.ResetState : Prop :=
  State.reset.pendingDC = [] ∧ State.reset.fault = none ∧
  (State.reset.cfg.featMec = true ∧ State.reset.cfg.edition = .new ∧ State.reset.cfg.paBits = 48 ∧
    State.reset.cfg.lineBytes = 64 ∧
    State.reset.cfg.memDomain = [{ space := .realm, base := 0, size := 2 ^ 48 }] ∧
    State.reset.cfg.dcAtomic = false ∧ State.reset.cfg.res0Strict = false) ∧
  (∀ t, readX t State.reset = 0) ∧ State.reset.pc = 0 ∧
  State.reset.el2Enabled = false ∧ State.reset.hcrEl2Nv = 0 ∧
  State.reset.el = .el3 ∧ State.reset.ss = .root ∧
  (∀ p a, memByte State.reset p a = if p = .realm ∧ a < 2 ^ 48 then some 0 else none) ∧
  (∀ l, cached State.reset l = none ∧ dirty State.reset l = false) ∧
  State.reset.schedule = [] ∧ State.reset.choices = 0 ∧
  State.reset.program.words = [] ∧ State.reset.program.base = 0

/-- The invariant holds at reset (log entry 3). -/
def Obligations.ResetMeetsTheInvariant : Prop := StateInv State.reset

/-- Every launch state meets the invariant, and so does every state a run of any length from one reaches (R21, R27, R105;
decision D20, log entry 26). -/
def Obligations.RunsFromALaunchMeetTheInvariant : Prop :=
  ∀ (k : Nat) (s u : State), Launch s → Host.Core.run core k s = .next u → StateInv u

/-- Every step of every agent keeps the invariant, from every state that meets it (R12, R21, R22, R23, R26; log entries 8, 17,
18, 27). -/
def Obligations.StepKeepsTheInvariant : Prop :=
  ∀ s u : State, StateInv s → step s = .next u → StateInv u

/-- Every step keeps clean copies equal to memory (R21, R24, R71; log entry 18). -/
def Obligations.StepKeepsCleanCopiesEqualToMemory : Prop :=
  ∀ s u : State, StateInv s → CleanAgrees s → step s = .next u → CleanAgrees u

/-- No data is lost: a line's value as its observers see it changes only by an environment write to that very line. No step of
the PE, no maintenance, fill, evict or background clean changes it (R24, R46, R71; decisions D13 and D15, log entries 18
and 20). -/
def Obligations.OnlyWritesChangeTheValueOfALine : Prop :=
  ∀ (s u : State) (l : LineId), StateInv s → CleanAgrees s → step s = .next u →
    (∀ d, (takeTurn s).1 ≠ .environment l (.write d)) →
    (∀ d, (takeTurn s).1 ≠ .environment l (.writeThrough d)) →
    lineValue u l = lineValue s l

/-- No step writes a general register, PSTATE.EL, the Security state, the old edition's inputs, a parameter or the program
text, over runs of any length (R14, R39, R43, R72). -/
def Obligations.RunsNeverWriteRegistersStatusOrProgram : Prop :=
  ∀ (k : Nat) (s u : State), Host.Core.run core k s = .next u →
    u.regs = s.regs ∧ u.el = s.el ∧ u.ss = s.ss ∧ u.el2Enabled = s.el2Enabled ∧
    u.hcrEl2Nv = s.hcrEl2Nv ∧ u.cfg = s.cfg ∧ u.program = s.program

/-- At EL0 and EL1 under the new edition no run of any length issues a request or moves `pc`, whatever the agents do and
whatever the hypervisor's inputs. That the check fails there is R67, R94 and R95; that `pc` stays where Undefined is raised and
no handler is entered is the model's choice (decisions D6 and D19, log entries 11 and 25). -/
def Obligations.UnprivilegedRunsIssueNothing : Prop :=
  ∀ (k : Nat) (s u : State), s.cfg.edition = .new → (s.el = .el0 ∨ s.el = .el1) →
    Host.Core.run core k s = .next u →
    u.pc = s.pc ∧ u.pendingDC.Sublist s.pendingDC ∧
      (u.fault = s.fault ∨ u.fault = some .undefined)

/-- Bookkeeping of the requests: the PE's turn adds at most one, and it is for a Realm line; a maintenance turn takes one
occurrence of its line out; an environment turn changes none (R23, R30, R40; decision D14, log entries 19 and 27). -/
def Obligations.PendingRequestsBookkeeping : Prop :=
  ∀ s u : State, step s = .next u →
    match (takeTurn s).1 with
    | .pe => u.pendingDC = s.pendingDC ∨
        ∃ l, l.space = .realm ∧ u.pendingDC.Perm (l :: s.pendingDC)
    | .maintenance l => u.pendingDC = s.pendingDC.erase l
    | .environment _ _ => u.pendingDC = s.pendingDC

/-- In a final state the PE has no word to run and no request is left to perform, but the environment's turns stay enabled:
those of the other agents give a next state (R110; decision D26, log entry 26). A state with a fault is never final. -/
def Obligations.FinalStates : Prop :=
  (∀ s s' : State, s.program.wellFormed = true → Final s → takeTurn s = (.pe, s') →
    step s = .refused (if s.pc.toNat ≤ 2 ^ 64 - 8 then .noProgramWord else .pcAtTop)) ∧
  (∀ s : State, Final s → (takeTurn s).1 ≠ .pe → ∃ u, step s = .next u ∧ Final u) ∧
  (∀ (s : State) (f : Fault), s.fault = some f → ¬ Final s)

/-! ## Runs without end -/

/-- Weak fairness of the maintenance agent (R109), over every run without end, whatever turns the other agents take between:
a weakly fair run performs every request that is pending at any of its steps and leaves the line uncached there; from some
step on nothing is pending; and once the PE is past the text with no fault, a final state comes. Without fairness, from a step
on at which a request is pending and never performed, no state of the run is final (decision D14, log entry 32). -/
def Obligations.WeaklyFairRunsPerformEveryRequest : Prop :=
  ∀ (turns : Nat → Turn) (states : Nat → State), IsRun turns states →
    (WeaklyFair turns states →
      (∀ k, ∀ l ∈ (states k).pendingDC, ∃ j, k ≤ j ∧ Performs turns states j l ∧
        (lineExists (states j).cfg l = true → cached (states (j + 1)) l = none)) ∧
      (∃ k, ∀ j, k ≤ j → (states j).pendingDC = []) ∧
      (∀ k, (states k).pc.toNat = programEnd (states k).program → (states k).fault = none →
        ∃ j, k ≤ j ∧ Final (states j))) ∧
    (∀ k, ∀ l ∈ (states k).pendingDC, (∀ j, k ≤ j → ¬ Performs turns states j l) →
      ∀ j, k ≤ j → ¬ Final (states j))

/-- The runs of WeaklyFairRunsPerformEveryRequest are runs of the machine: every first part of one is what the machine does
when those turns are decided, and a step of the machine is a move of the agent whose turn it is, the scheduler's own fields
apart (R40; log entry 21). -/
def Obligations.RunsAreStepsOnTheirSchedule : Prop :=
  (∀ (turns : Nat → Turn) (states : Nat → State) (k : Nat) (ts : List Turn), IsRun turns states →
    Host.Core.run core k { states 0 with schedule := (List.range k).map turns ++ ts, choices := 0 } =
      .next { states k with schedule := ts, choices := 0 }) ∧
  (∀ (s u : State) (ts : List Turn) (n : Nat), step s = .next u →
    moveAgent (takeTurn s).1 { s with schedule := ts, choices := n } =
      .next { u with schedule := ts, choices := n })
end

