-- ==== Sys2Proof/Laws/Cache.lean ====
section
/-!
SUPPORT. The laws of a bank of the logical cache: looking up after putting and dropping, and the canonical form.
-/

namespace Sys2Proof.Machine

theorem CacheBank.lookup_cons (e : CacheLine) (c : CacheBank) (i : Nat) :
    CacheBank.lookup (e :: c) i = if e.idx = i then some e else c.lookup i := rfl

theorem CacheBank.mem_of_lookup {c : CacheBank} {i : Nat} {e : CacheLine}
    (h : c.lookup i = some e) : e ∈ c ∧ e.idx = i := by
  induction c with
  | nil => simp [CacheBank.lookup] at h
  | cons x c ih =>
    rw [CacheBank.lookup_cons] at h
    split at h
    · obtain rfl : x = e := by simpa using h
      exact ⟨by simp, ‹_›⟩
    · exact ⟨by simp [(ih h).1], (ih h).2⟩

theorem CacheBank.lookup_none_iff {c : CacheBank} {i : Nat} :
    c.lookup i = none ↔ ∀ e ∈ c, e.idx ≠ i := by
  induction c with
  | nil => simp [CacheBank.lookup]
  | cons x c ih =>
    rw [CacheBank.lookup_cons]
    split <;> simp_all

/-- In a canonical bank every entry is the one its index finds. -/
theorem CacheBank.lookup_of_mem {c : CacheBank} (h : c.wf) {e : CacheLine} (he : e ∈ c) :
    c.lookup e.idx = some e := by
  induction c with
  | nil => simp at he
  | cons x c ih =>
    obtain ⟨hx, hc⟩ := List.pairwise_cons.mp h
    rw [CacheBank.lookup_cons]
    rcases List.mem_cons.mp he with rfl | he
    · simp
    · rw [if_neg (by have := hx e he; omega)]
      exact ih hc he

@[simp] theorem CacheBank.lookup_put_same (c : CacheBank) (e : CacheLine) :
    (c.put e).lookup e.idx = some e := by
  induction c with
  | nil => simp [CacheBank.put, CacheBank.lookup]
  | cons x c ih =>
    rw [CacheBank.put]
    split
    · simp [CacheBank.lookup]
    · split
      · simp [CacheBank.lookup]
      · rename_i h
        rw [CacheBank.lookup_cons, if_neg h, ih]

theorem CacheBank.lookup_put_other (c : CacheBank) (e : CacheLine) {i : Nat} (h : i ≠ e.idx) :
    (c.put e).lookup i = c.lookup i := by
  induction c with
  | nil => simp [CacheBank.put, CacheBank.lookup, Ne.symm h]
  | cons x c ih =>
    rw [CacheBank.put]
    split
    · rw [CacheBank.lookup_cons, if_neg (Ne.symm h)]
    · split
      · rename_i hx
        rw [CacheBank.lookup_cons, CacheBank.lookup_cons, if_neg (Ne.symm h),
          if_neg (by rw [hx]; exact Ne.symm h)]
      · rw [CacheBank.lookup_cons, CacheBank.lookup_cons, ih]

@[simp] theorem CacheBank.lookup_drop_same (c : CacheBank) (i : Nat) :
    (c.drop i).lookup i = none :=
  CacheBank.lookup_none_iff.mpr fun e he => by simpa using (List.mem_filter.mp he).2

theorem CacheBank.lookup_drop_other (c : CacheBank) {i j : Nat} (h : j ≠ i) :
    (c.drop i).lookup j = c.lookup j := by
  induction c with
  | nil => rfl
  | cons x c ih =>
    unfold CacheBank.drop at ih ⊢
    by_cases hx : x.idx = i
    · rw [List.filter_cons_of_neg (by simpa using hx), ih, CacheBank.lookup_cons,
        if_neg (by rw [hx]; exact Ne.symm h)]
    · rw [List.filter_cons_of_pos (by simpa using hx), CacheBank.lookup_cons,
        CacheBank.lookup_cons, ih]

theorem CacheBank.drop_comm (c : CacheBank) (i j : Nat) :
    (c.drop i).drop j = (c.drop j).drop i := by
  simp [CacheBank.drop, List.filter_filter, Bool.and_comm]

theorem CacheBank.mem_drop {c : CacheBank} {i : Nat} {e : CacheLine} :
    e ∈ c.drop i ↔ e ∈ c ∧ e.idx ≠ i := by
  simp [CacheBank.drop, List.mem_filter]

theorem CacheBank.mem_put {c : CacheBank} {e x : CacheLine} (h : x ∈ c.put e) :
    x = e ∨ x ∈ c := by
  induction c with
  | nil => exact .inl (by simpa [CacheBank.put] using h)
  | cons y c ih =>
    rw [CacheBank.put] at h
    split at h
    · simpa using h
    · split at h
      · rcases List.mem_cons.mp h with h | h
        · exact .inl h
        · exact .inr (by simp [h])
      · rcases List.mem_cons.mp h with h | h
        · exact .inr (by simp [h])
        · rcases ih h with h | h
          · exact .inl h
          · exact .inr (by simp [h])

theorem CacheBank.drop_wf {c : CacheBank} (h : c.wf) (i : Nat) : (c.drop i).wf :=
  h.filter _

theorem CacheBank.put_wf {c : CacheBank} (h : c.wf) (e : CacheLine) : (c.put e).wf := by
  induction c with
  | nil => simp [CacheBank.put]
  | cons x c ih =>
    obtain ⟨hx, hc⟩ := List.pairwise_cons.mp h
    rw [CacheBank.put]
    split
    · refine List.pairwise_cons.mpr ⟨fun y hy => ?_, h⟩
      rcases List.mem_cons.mp hy with rfl | hy
      · assumption
      · have := hx y hy; omega
    · split
      · rename_i he
        exact List.pairwise_cons.mpr ⟨fun y hy => by rw [← he]; exact hx y hy, hc⟩
      · refine List.pairwise_cons.mpr ⟨fun y hy => ?_, ih hc⟩
        rcases CacheBank.mem_put hy with rfl | hy
        · omega
        · exact hx y hy

end Sys2Proof.Machine
end

