-- ==== Sys2Proof/Laws/Memory.lean ====
section
/-!
SUPPORT. The laws of memory: a read after a write, the canonical form, and that canonical memories are equal when they read
alike.
-/

namespace Sys2Proof.Machine

theorem Memory.read_cons (k : Nat) (b : Byte) (m : Memory) (a : Nat) :
    Memory.read ((k, b) :: m) a = if k = a then b else m.read a := rfl

/-- A byte below every listed address is unlisted. -/
theorem Memory.read_of_lt {m : Memory} {a : Nat} (h : ∀ c ∈ m, a < c.1) :
    m.read a = Memory.unlisted := by
  induction m with
  | nil => rfl
  | cons c m ih =>
    obtain ⟨k, b⟩ := c
    have hk : a < k := h (k, b) (by simp)
    rw [Memory.read_cons, if_neg (by omega)]
    exact ih fun c hc => h c (by simp [hc])

/-- A byte no entry names is unlisted. -/
theorem Memory.read_of_not_listed {m : Memory} {a : Nat} (h : ∀ c ∈ m, c.1 ≠ a) :
    m.read a = Memory.unlisted := by
  induction m with
  | nil => rfl
  | cons c m ih =>
    obtain ⟨k, b⟩ := c
    rw [Memory.read_cons, if_neg (h (k, b) (by simp))]
    exact ih fun c hc => h c (by simp [hc])

theorem Memory.read_write_same {m : Memory} (h : m.wf) (a : Nat) (b : Byte) :
    (m.write a b).read a = b := by
  induction m with
  | nil => by_cases hb : b = Memory.unlisted <;> simp [Memory.write, Memory.read, hb]
  | cons c m ih =>
    obtain ⟨k, x⟩ := c
    obtain ⟨hs, hu⟩ := h
    have hlt : ∀ c ∈ m, k < c.1 := fun c hc => (List.pairwise_cons.mp hs).1 c hc
    have hm : Memory.wf m := ⟨(List.pairwise_cons.mp hs).2, fun c hc => hu c (by simp [hc])⟩
    rw [Memory.write]
    split
    · split
      · subst b
        exact Memory.read_of_lt (by
          simp only [List.mem_cons]
          rintro c (rfl | hc)
          · assumption
          · have := hlt c hc; omega)
      · simp [Memory.read]
    · split
      · subst k
        split
        · subst b
          exact Memory.read_of_lt hlt
        · simp [Memory.read]
      · rename_i hne
        rw [Memory.read_cons, if_neg hne]
        exact ih hm

theorem Memory.read_write_other (m : Memory) {a a' : Nat} (b : Byte) (h : a' ≠ a) :
    (m.write a b).read a' = m.read a' := by
  induction m with
  | nil => by_cases hb : b = Memory.unlisted <;> simp [Memory.write, Memory.read, hb, Ne.symm h]
  | cons c m ih =>
    obtain ⟨k, x⟩ := c
    rw [Memory.write]
    split
    · split
      · rfl
      · rw [Memory.read_cons, if_neg (Ne.symm h)]
    · split
      · subst k
        split <;> simp [Memory.read, Ne.symm h]
      · rw [Memory.read_cons, Memory.read_cons, ih]

/-- The entries after a write: the old ones and the one written. -/
theorem Memory.mem_write {m : Memory} {a : Nat} {b : Byte} {c : Host.Cell}
    (h : c ∈ m.write a b) : c ∈ m ∨ (c = (a, b) ∧ b ≠ Memory.unlisted) := by
  induction m with
  | nil =>
    rw [Memory.write] at h
    split at h
    · simp at h
    · exact .inr ⟨by simpa using h, ‹_›⟩
  | cons d m ih =>
    obtain ⟨k, x⟩ := d
    rw [Memory.write] at h
    split at h
    · split at h
      · exact .inl h
      · rcases List.mem_cons.mp h with h | h
        · exact .inr ⟨h, ‹_›⟩
        · exact .inl h
    · split at h
      · split at h
        · exact .inl (by simp [h])
        · rcases List.mem_cons.mp h with h | h
          · exact .inr ⟨h, ‹_›⟩
          · exact .inl (by simp [h])
      · rcases List.mem_cons.mp h with h | h
        · exact .inl (by simp [h])
        · rcases ih h with h | h
          · exact .inl (by simp [h])
          · exact .inr h

/-- A write keeps the canonical form. -/
theorem Memory.write_wf {m : Memory} (h : m.wf) (a : Nat) (b : Byte) : (m.write a b).wf := by
  refine ⟨?_, fun c hc => ?_⟩
  · induction m with
    | nil => rw [Memory.write]; split <;> simp
    | cons c m ih =>
      obtain ⟨k, x⟩ := c
      obtain ⟨hs, hu⟩ := h
      have hlt := (List.pairwise_cons.mp hs).1
      have hm : Memory.wf m := ⟨(List.pairwise_cons.mp hs).2, fun c hc => hu c (by simp [hc])⟩
      rw [Memory.write]
      split
      · split
        · exact hs
        · refine List.pairwise_cons.mpr ⟨fun c hc => ?_, hs⟩
          rcases List.mem_cons.mp hc with rfl | hc
          · assumption
          · have := hlt c hc
            show a < c.1
            omega
      · split
        · subst k
          split
          · exact hm.1
          · exact List.pairwise_cons.mpr ⟨hlt, hm.1⟩
        · refine List.pairwise_cons.mpr ⟨fun c hc => ?_, ih hm⟩
          rcases Memory.mem_write hc with hc | ⟨rfl, _⟩
          · exact hlt c hc
          · show k < a
            omega
  · rcases Memory.mem_write hc with hc | ⟨rfl, hb⟩
    · exact h.2 c hc
    · exact hb

/-- Canonical memories that read alike everywhere are equal. -/
theorem Memory.ext_of_wf {m n : Memory} (hm : m.wf) (hn : n.wf) (h : ∀ a, m.read a = n.read a) :
    m = n := by
  induction m generalizing n with
  | nil =>
    cases n with
    | nil => rfl
    | cons d n =>
      have := h d.1
      rw [show Memory.read [] d.1 = Memory.unlisted from rfl, Memory.read_cons d.1 d.2, if_pos rfl]
        at this
      exact absurd this.symm (hn.2 d (by simp))
  | cons c m ih =>
    have hmt : Memory.wf m := ⟨(List.pairwise_cons.mp hm.1).2, fun x hx => hm.2 x (by simp [hx])⟩
    have hml := (List.pairwise_cons.mp hm.1).1
    have hc : Memory.read (c :: m) c.1 = c.2 := by rw [Memory.read_cons c.1 c.2, if_pos rfl]
    have hcu := hm.2 c (by simp)
    cases n with
    | nil => exact absurd ((h c.1).symm.trans hc).symm hcu
    | cons d n =>
      have hnt : Memory.wf n := ⟨(List.pairwise_cons.mp hn.1).2, fun x hx => hn.2 x (by simp [hx])⟩
      have hnl := (List.pairwise_cons.mp hn.1).1
      have hd : Memory.read (d :: n) d.1 = d.2 := by rw [Memory.read_cons d.1 d.2, if_pos rfl]
      have hdu := hn.2 d (by simp)
      have below : ∀ {x : Host.Cell} {l : Memory} {y : Host.Cell},
          (∀ z ∈ l, y.1 < z.1) → x.1 < y.1 → Memory.read (y :: l) x.1 = Memory.unlisted := by
        intro x l y hl hxy
        refine Memory.read_of_lt fun z hz => ?_
        rcases List.mem_cons.mp hz with rfl | hz
        · exact hxy
        · have := hl z hz; omega
      have hk : c.1 = d.1 := by
        rcases Nat.lt_trichotomy c.1 d.1 with hlt | heq | hgt
        · exact absurd (hc.symm.trans ((h c.1).trans (below hnl hlt))) hcu
        · exact heq
        · exact absurd (hd.symm.trans ((h d.1).symm.trans (below hml hgt))) hdu
      have hv : c.2 = d.2 := by rw [← hc, h c.1, hk, hd]
      have hcd : c = d := Prod.ext hk hv
      subst hcd
      congr 1
      refine ih hmt hnt fun a => ?_
      by_cases ha : c.1 = a
      · subst ha
        rw [Memory.read_of_lt hml, Memory.read_of_lt hnl]
      · have := h a
        rwa [Memory.read_cons c.1 c.2, Memory.read_cons c.1 c.2, if_neg ha, if_neg ha] at this

/-! ### Bytes in a row -/

@[simp] theorem Memory.length_readBytes (m : Memory) (a n : Nat) :
    (m.readBytes a n).length = n := by
  induction n generalizing a with
  | zero => rfl
  | succ n ih => simp [Memory.readBytes, ih]

theorem Memory.writeBytes_wf {m : Memory} (h : m.wf) (a : Nat) (bs : List Byte) :
    (m.writeBytes a bs).wf := by
  induction bs generalizing m a with
  | nil => exact h
  | cons b bs ih => exact ih (Memory.write_wf h a b) (a + 1)

/-- A byte outside the ones written reads as before. -/
theorem Memory.read_writeBytes_other (m : Memory) {a x : Nat} (bs : List Byte)
    (h : x < a ∨ a + bs.length ≤ x) : (m.writeBytes a bs).read x = m.read x := by
  induction bs generalizing m a with
  | nil => rfl
  | cons b bs ih =>
    rw [List.length_cons] at h
    rw [Memory.writeBytes, ih (m.write a b) (by omega), Memory.read_write_other m b (by omega)]

/-- A byte among the ones written reads as written. -/
theorem Memory.read_writeBytes_same {m : Memory} (h : m.wf) (a : Nat) (bs : List Byte) {k : Nat}
    (hk : k < bs.length) : (m.writeBytes a bs).read (a + k) = bs[k] := by
  induction bs generalizing m a k with
  | nil => simp at hk
  | cons b bs ih =>
    cases k with
    | zero =>
      rw [Memory.writeBytes, Memory.read_writeBytes_other _ bs (by omega), Nat.add_zero,
        Memory.read_write_same h]
      rfl
    | succ k =>
      have hk' : k < bs.length := by simpa using hk
      have := ih (Memory.write_wf h a b) (a + 1) hk'
      rw [Memory.writeBytes, show a + (k + 1) = a + 1 + k by omega, this]
      rfl

/-- Reading back the bytes just written gives them. -/
theorem Memory.readBytes_writeBytes_same {m : Memory} (h : m.wf) (a : Nat) (bs : List Byte) :
    (m.writeBytes a bs).readBytes a bs.length = bs := by
  induction bs generalizing m a with
  | nil => rfl
  | cons b bs ih =>
    rw [Memory.writeBytes, List.length_cons, Memory.readBytes, ih (Memory.write_wf h a b) (a + 1),
      Memory.read_writeBytes_other _ bs (by omega), Memory.read_write_same h]

/-- Two memories that read alike over a range give the same bytes of it. -/
theorem Memory.readBytes_congr {m n : Memory} {a k : Nat}
    (h : ∀ x, a ≤ x → x < a + k → m.read x = n.read x) : m.readBytes a k = n.readBytes a k := by
  induction k generalizing a with
  | zero => rfl
  | succ k ih =>
    rw [Memory.readBytes, Memory.readBytes, h a (by omega) (by omega),
      ih fun x hx hx' => h x (by omega) (by omega)]

/-- The entries after writing some bytes: old ones, and ones at the addresses written. -/
theorem Memory.mem_writeBytes {m : Memory} {a : Nat} {bs : List Byte} {c : Host.Cell}
    (h : c ∈ m.writeBytes a bs) : c ∈ m ∨ (a ≤ c.1 ∧ c.1 < a + bs.length) := by
  induction bs generalizing m a with
  | nil => exact .inl h
  | cons b bs ih =>
    rw [List.length_cons]
    rcases ih h with h | h
    · rcases Memory.mem_write h with h | ⟨rfl, _⟩
      · exact .inl h
      · exact .inr ⟨Nat.le_refl _, by show a < _; omega⟩
    · exact .inr (by omega)

/-- Writes to ranges that do not meet commute. -/
theorem Memory.writeBytes_comm {m : Memory} (h : m.wf) {a b : Nat} {xs ys : List Byte}
    (hd : a + xs.length ≤ b ∨ b + ys.length ≤ a) :
    (m.writeBytes a xs).writeBytes b ys = (m.writeBytes b ys).writeBytes a xs := by
  have hx := Memory.writeBytes_wf h a xs
  have hy := Memory.writeBytes_wf h b ys
  refine Memory.ext_of_wf (Memory.writeBytes_wf hx b ys) (Memory.writeBytes_wf hy a xs) fun i => ?_
  by_cases hi : b ≤ i ∧ i < b + ys.length
  · obtain ⟨k, rfl⟩ : ∃ k, i = b + k := ⟨i - b, by omega⟩
    have hk : k < ys.length := by omega
    rw [Memory.read_writeBytes_same hx b ys hk,
      Memory.read_writeBytes_other (m.writeBytes b ys) xs (by omega),
      Memory.read_writeBytes_same h b ys hk]
  · rw [Memory.read_writeBytes_other (m.writeBytes a xs) ys (by omega)]
    by_cases hj : a ≤ i ∧ i < a + xs.length
    · obtain ⟨k, rfl⟩ : ∃ k, i = a + k := ⟨i - a, by omega⟩
      have hk : k < xs.length := by omega
      rw [Memory.read_writeBytes_same h a xs hk, Memory.read_writeBytes_same hy a xs hk]
    · rw [Memory.read_writeBytes_other m xs (by omega),
        Memory.read_writeBytes_other (m.writeBytes b ys) xs (by omega),
        Memory.read_writeBytes_other m ys (by omega)]

end Sys2Proof.Machine
end

