-- ==== Sys2Proof/Laws/State.lean ====
section
/-!
SUPPORT. Each field of the state after each single-field update, and each PA space after one is replaced.
-/

namespace Sys2Proof.Machine

variable (s : State)

/-! ### State.setPC -/

@[simp] theorem State.setPC_cfg (v : Word64) : (s.setPC v).cfg = s.cfg := rfl
@[simp] theorem State.setPC_program (v : Word64) : (s.setPC v).program = s.program := rfl
@[simp] theorem State.setPC_regs (v : Word64) : (s.setPC v).regs = s.regs := rfl
@[simp] theorem State.setPC_pc (v : Word64) : (s.setPC v).pc = v := rfl
@[simp] theorem State.setPC_el (v : Word64) : (s.setPC v).el = s.el := rfl
@[simp] theorem State.setPC_ss (v : Word64) : (s.setPC v).ss = s.ss := rfl
@[simp] theorem State.setPC_el2Enabled (v : Word64) : (s.setPC v).el2Enabled = s.el2Enabled := rfl
@[simp] theorem State.setPC_hcrEl2Nv (v : Word64) : (s.setPC v).hcrEl2Nv = s.hcrEl2Nv := rfl
@[simp] theorem State.setPC_cache (v : Word64) : (s.setPC v).cache = s.cache := rfl
@[simp] theorem State.setPC_mem (v : Word64) : (s.setPC v).mem = s.mem := rfl
@[simp] theorem State.setPC_pendingDC (v : Word64) : (s.setPC v).pendingDC = s.pendingDC := rfl
@[simp] theorem State.setPC_fault (v : Word64) : (s.setPC v).fault = s.fault := rfl
@[simp] theorem State.setPC_schedule (v : Word64) : (s.setPC v).schedule = s.schedule := rfl
@[simp] theorem State.setPC_choices (v : Word64) : (s.setPC v).choices = s.choices := rfl

/-! ### State.setFault -/

@[simp] theorem State.setFault_cfg (v : Option Fault) : (s.setFault v).cfg = s.cfg := rfl
@[simp] theorem State.setFault_program (v : Option Fault) : (s.setFault v).program = s.program := rfl
@[simp] theorem State.setFault_regs (v : Option Fault) : (s.setFault v).regs = s.regs := rfl
@[simp] theorem State.setFault_pc (v : Option Fault) : (s.setFault v).pc = s.pc := rfl
@[simp] theorem State.setFault_el (v : Option Fault) : (s.setFault v).el = s.el := rfl
@[simp] theorem State.setFault_ss (v : Option Fault) : (s.setFault v).ss = s.ss := rfl
@[simp] theorem State.setFault_el2Enabled (v : Option Fault) : (s.setFault v).el2Enabled = s.el2Enabled := rfl
@[simp] theorem State.setFault_hcrEl2Nv (v : Option Fault) : (s.setFault v).hcrEl2Nv = s.hcrEl2Nv := rfl
@[simp] theorem State.setFault_cache (v : Option Fault) : (s.setFault v).cache = s.cache := rfl
@[simp] theorem State.setFault_mem (v : Option Fault) : (s.setFault v).mem = s.mem := rfl
@[simp] theorem State.setFault_pendingDC (v : Option Fault) : (s.setFault v).pendingDC = s.pendingDC := rfl
@[simp] theorem State.setFault_fault (v : Option Fault) : (s.setFault v).fault = v := rfl
@[simp] theorem State.setFault_schedule (v : Option Fault) : (s.setFault v).schedule = s.schedule := rfl
@[simp] theorem State.setFault_choices (v : Option Fault) : (s.setFault v).choices = s.choices := rfl

/-! ### State.setPending -/

@[simp] theorem State.setPending_cfg (v : List LineId) : (s.setPending v).cfg = s.cfg := rfl
@[simp] theorem State.setPending_program (v : List LineId) : (s.setPending v).program = s.program := rfl
@[simp] theorem State.setPending_regs (v : List LineId) : (s.setPending v).regs = s.regs := rfl
@[simp] theorem State.setPending_pc (v : List LineId) : (s.setPending v).pc = s.pc := rfl
@[simp] theorem State.setPending_el (v : List LineId) : (s.setPending v).el = s.el := rfl
@[simp] theorem State.setPending_ss (v : List LineId) : (s.setPending v).ss = s.ss := rfl
@[simp] theorem State.setPending_el2Enabled (v : List LineId) : (s.setPending v).el2Enabled = s.el2Enabled := rfl
@[simp] theorem State.setPending_hcrEl2Nv (v : List LineId) : (s.setPending v).hcrEl2Nv = s.hcrEl2Nv := rfl
@[simp] theorem State.setPending_cache (v : List LineId) : (s.setPending v).cache = s.cache := rfl
@[simp] theorem State.setPending_mem (v : List LineId) : (s.setPending v).mem = s.mem := rfl
@[simp] theorem State.setPending_pendingDC (v : List LineId) : (s.setPending v).pendingDC = v := rfl
@[simp] theorem State.setPending_fault (v : List LineId) : (s.setPending v).fault = s.fault := rfl
@[simp] theorem State.setPending_schedule (v : List LineId) : (s.setPending v).schedule = s.schedule := rfl
@[simp] theorem State.setPending_choices (v : List LineId) : (s.setPending v).choices = s.choices := rfl

/-! ### State.setCache -/

@[simp] theorem State.setCache_cfg (p : PASpace) (v : CacheBank) : (s.setCache p v).cfg = s.cfg := rfl
@[simp] theorem State.setCache_program (p : PASpace) (v : CacheBank) : (s.setCache p v).program = s.program := rfl
@[simp] theorem State.setCache_regs (p : PASpace) (v : CacheBank) : (s.setCache p v).regs = s.regs := rfl
@[simp] theorem State.setCache_pc (p : PASpace) (v : CacheBank) : (s.setCache p v).pc = s.pc := rfl
@[simp] theorem State.setCache_el (p : PASpace) (v : CacheBank) : (s.setCache p v).el = s.el := rfl
@[simp] theorem State.setCache_ss (p : PASpace) (v : CacheBank) : (s.setCache p v).ss = s.ss := rfl
@[simp] theorem State.setCache_el2Enabled (p : PASpace) (v : CacheBank) : (s.setCache p v).el2Enabled = s.el2Enabled := rfl
@[simp] theorem State.setCache_hcrEl2Nv (p : PASpace) (v : CacheBank) : (s.setCache p v).hcrEl2Nv = s.hcrEl2Nv := rfl
@[simp] theorem State.setCache_cache (p : PASpace) (v : CacheBank) : (s.setCache p v).cache = s.cache.set p v := rfl
@[simp] theorem State.setCache_mem (p : PASpace) (v : CacheBank) : (s.setCache p v).mem = s.mem := rfl
@[simp] theorem State.setCache_pendingDC (p : PASpace) (v : CacheBank) : (s.setCache p v).pendingDC = s.pendingDC := rfl
@[simp] theorem State.setCache_fault (p : PASpace) (v : CacheBank) : (s.setCache p v).fault = s.fault := rfl
@[simp] theorem State.setCache_schedule (p : PASpace) (v : CacheBank) : (s.setCache p v).schedule = s.schedule := rfl
@[simp] theorem State.setCache_choices (p : PASpace) (v : CacheBank) : (s.setCache p v).choices = s.choices := rfl

/-! ### State.setMem -/

@[simp] theorem State.setMem_cfg (p : PASpace) (v : Memory) : (s.setMem p v).cfg = s.cfg := rfl
@[simp] theorem State.setMem_program (p : PASpace) (v : Memory) : (s.setMem p v).program = s.program := rfl
@[simp] theorem State.setMem_regs (p : PASpace) (v : Memory) : (s.setMem p v).regs = s.regs := rfl
@[simp] theorem State.setMem_pc (p : PASpace) (v : Memory) : (s.setMem p v).pc = s.pc := rfl
@[simp] theorem State.setMem_el (p : PASpace) (v : Memory) : (s.setMem p v).el = s.el := rfl
@[simp] theorem State.setMem_ss (p : PASpace) (v : Memory) : (s.setMem p v).ss = s.ss := rfl
@[simp] theorem State.setMem_el2Enabled (p : PASpace) (v : Memory) : (s.setMem p v).el2Enabled = s.el2Enabled := rfl
@[simp] theorem State.setMem_hcrEl2Nv (p : PASpace) (v : Memory) : (s.setMem p v).hcrEl2Nv = s.hcrEl2Nv := rfl
@[simp] theorem State.setMem_cache (p : PASpace) (v : Memory) : (s.setMem p v).cache = s.cache := rfl
@[simp] theorem State.setMem_mem (p : PASpace) (v : Memory) : (s.setMem p v).mem = s.mem.set p v := rfl
@[simp] theorem State.setMem_pendingDC (p : PASpace) (v : Memory) : (s.setMem p v).pendingDC = s.pendingDC := rfl
@[simp] theorem State.setMem_fault (p : PASpace) (v : Memory) : (s.setMem p v).fault = s.fault := rfl
@[simp] theorem State.setMem_schedule (p : PASpace) (v : Memory) : (s.setMem p v).schedule = s.schedule := rfl
@[simp] theorem State.setMem_choices (p : PASpace) (v : Memory) : (s.setMem p v).choices = s.choices := rfl

/-! ### State.setSchedule -/

@[simp] theorem State.setSchedule_cfg (v : List Turn) : (s.setSchedule v).cfg = s.cfg := rfl
@[simp] theorem State.setSchedule_program (v : List Turn) : (s.setSchedule v).program = s.program := rfl
@[simp] theorem State.setSchedule_regs (v : List Turn) : (s.setSchedule v).regs = s.regs := rfl
@[simp] theorem State.setSchedule_pc (v : List Turn) : (s.setSchedule v).pc = s.pc := rfl
@[simp] theorem State.setSchedule_el (v : List Turn) : (s.setSchedule v).el = s.el := rfl
@[simp] theorem State.setSchedule_ss (v : List Turn) : (s.setSchedule v).ss = s.ss := rfl
@[simp] theorem State.setSchedule_el2Enabled (v : List Turn) : (s.setSchedule v).el2Enabled = s.el2Enabled := rfl
@[simp] theorem State.setSchedule_hcrEl2Nv (v : List Turn) : (s.setSchedule v).hcrEl2Nv = s.hcrEl2Nv := rfl
@[simp] theorem State.setSchedule_cache (v : List Turn) : (s.setSchedule v).cache = s.cache := rfl
@[simp] theorem State.setSchedule_mem (v : List Turn) : (s.setSchedule v).mem = s.mem := rfl
@[simp] theorem State.setSchedule_pendingDC (v : List Turn) : (s.setSchedule v).pendingDC = s.pendingDC := rfl
@[simp] theorem State.setSchedule_fault (v : List Turn) : (s.setSchedule v).fault = s.fault := rfl
@[simp] theorem State.setSchedule_schedule (v : List Turn) : (s.setSchedule v).schedule = v := rfl
@[simp] theorem State.setSchedule_choices (v : List Turn) : (s.setSchedule v).choices = s.choices := rfl

/-! ### State.setChoices -/

@[simp] theorem State.setChoices_cfg (v : Nat) : (s.setChoices v).cfg = s.cfg := rfl
@[simp] theorem State.setChoices_program (v : Nat) : (s.setChoices v).program = s.program := rfl
@[simp] theorem State.setChoices_regs (v : Nat) : (s.setChoices v).regs = s.regs := rfl
@[simp] theorem State.setChoices_pc (v : Nat) : (s.setChoices v).pc = s.pc := rfl
@[simp] theorem State.setChoices_el (v : Nat) : (s.setChoices v).el = s.el := rfl
@[simp] theorem State.setChoices_ss (v : Nat) : (s.setChoices v).ss = s.ss := rfl
@[simp] theorem State.setChoices_el2Enabled (v : Nat) : (s.setChoices v).el2Enabled = s.el2Enabled := rfl
@[simp] theorem State.setChoices_hcrEl2Nv (v : Nat) : (s.setChoices v).hcrEl2Nv = s.hcrEl2Nv := rfl
@[simp] theorem State.setChoices_cache (v : Nat) : (s.setChoices v).cache = s.cache := rfl
@[simp] theorem State.setChoices_mem (v : Nat) : (s.setChoices v).mem = s.mem := rfl
@[simp] theorem State.setChoices_pendingDC (v : Nat) : (s.setChoices v).pendingDC = s.pendingDC := rfl
@[simp] theorem State.setChoices_fault (v : Nat) : (s.setChoices v).fault = s.fault := rfl
@[simp] theorem State.setChoices_schedule (v : Nat) : (s.setChoices v).schedule = s.schedule := rfl
@[simp] theorem State.setChoices_choices (v : Nat) : (s.setChoices v).choices = v := rfl

/-! ### Banked -/

@[simp] theorem Banked.get_set_same {α : Type} (b : Banked α) (p : PASpace) (v : α) :
    (b.set p v).get p = v := by
  cases p <;> rfl

theorem Banked.get_set_other {α : Type} (b : Banked α) {p q : PASpace} (v : α) (h : q ≠ p) :
    (b.set p v).get q = b.get q := by
  cases p <;> cases q <;> first | rfl | exact absurd rfl h

theorem Banked.get_set {α : Type} (b : Banked α) (p q : PASpace) (v : α) :
    (b.set p v).get q = if q = p then v else b.get q := by
  cases p <;> cases q <;> rfl

/-- Two banked values that agree on every space are equal. -/
theorem Banked.ext_get {α : Type} {a b : Banked α} (h : ∀ p, a.get p = b.get p) : a = b := by
  cases a
  cases b
  simpa [Banked.get] using And.intro (h .nonSecure) ⟨h .secure, h .realm, h .root⟩

end Sys2Proof.Machine
end

