-- ==== Sys2Proof/Laws/Ops.lean ====
section
/-!
SUPPORT. What each shared operation does, said once: the operations on one line change that line alone and keep the
canonical forms, the multiset of pending requests, and the scheduler.
-/

namespace Sys2Proof.Machine

/-! ## Lines -/

theorem lineBytes_pos (c : Config) : 0 < c.lineBytes := Nat.two_pow_pos _

/-- An address lies in a line's range exactly when its quotient by LINE_BYTES is the line's index. -/
theorem in_line_iff (c : Config) (l : LineId) (a : Nat) :
    (lineBase c l ≤ a ∧ a < lineBase c l + c.lineBytes) ↔ a / c.lineBytes = l.idx := by
  have h := lineBytes_pos c
  rw [Nat.div_eq_iff h, lineBase]
  omega

/-- Two lines of one space do not meet. -/
theorem lines_disjoint (c : Config) {l l' : LineId} (h : l'.idx ≠ l.idx) :
    lineBase c l' + c.lineBytes ≤ lineBase c l ∨ lineBase c l + c.lineBytes ≤ lineBase c l' := by
  unfold lineBase
  rcases Nat.lt_or_gt_of_ne h with h | h
  · exact .inl (by have := Nat.mul_le_mul_right c.lineBytes h; rw [Nat.succ_mul] at this; exact this)
  · exact .inr (by have := Nat.mul_le_mul_right c.lineBytes h; rw [Nat.succ_mul] at this; exact this)

/-- Whether a line exists depends on MEM_DOMAIN, PA_BITS and LINE_BYTES alone, not on DC_ATOMIC. -/
@[simp] theorem lineExists_atomic (c : Config) (b : Bool) (l : LineId) :
    lineExists { c with dcAtomic := b } l = lineExists c l := rfl

/-! ## Changing one line -/

/-- `u` is `s` but for the cache entry and the bytes of the line `l`. -/
structure OnlyLine (l : LineId) (s u : State) : Prop where
  /-- No other field changes. -/
  fields : u = { s with cache := u.cache, mem := u.mem }
  /-- No other line's cache entry changes. -/
  entries : ∀ l', l' ≠ l → cacheEntry u l' = cacheEntry s l'
  /-- No byte outside the line changes. -/
  bytes : ∀ p a, (p ≠ l.space ∨ a < lineBase s.cfg l ∨ lineBase s.cfg l + s.cfg.lineBytes ≤ a) →
    (u.mem.get p).read a = (s.mem.get p).read a

theorem OnlyLine.refl (l : LineId) (s : State) : OnlyLine l s s :=
  ⟨rfl, fun _ _ => rfl, fun _ _ _ => rfl⟩

section
variable {l : LineId} {s u : State} (h : OnlyLine l s u)
include h

theorem OnlyLine.cfg : u.cfg = s.cfg := by rw [h.fields]
theorem OnlyLine.program : u.program = s.program := by rw [h.fields]
theorem OnlyLine.regs : u.regs = s.regs := by rw [h.fields]
theorem OnlyLine.pc : u.pc = s.pc := by rw [h.fields]
theorem OnlyLine.el : u.el = s.el := by rw [h.fields]
theorem OnlyLine.ss : u.ss = s.ss := by rw [h.fields]
theorem OnlyLine.el2Enabled : u.el2Enabled = s.el2Enabled := by rw [h.fields]
theorem OnlyLine.hcrEl2Nv : u.hcrEl2Nv = s.hcrEl2Nv := by rw [h.fields]
theorem OnlyLine.pendingDC : u.pendingDC = s.pendingDC := by rw [h.fields]
theorem OnlyLine.fault : u.fault = s.fault := by rw [h.fields]
theorem OnlyLine.schedule : u.schedule = s.schedule := by rw [h.fields]
theorem OnlyLine.choices : u.choices = s.choices := by rw [h.fields]

theorem OnlyLine.trans {v : State} (h' : OnlyLine l u v) : OnlyLine l s v where
  fields := by
    have hv := h'.fields
    rw [h.fields] at hv
    exact hv
  entries l' hl := (h'.entries l' hl).trans (h.entries l' hl)
  bytes p a ha := (h'.bytes p a (by rw [h.cfg]; exact ha)).trans (h.bytes p a ha)

theorem OnlyLine.cached {l' : LineId} (hl : l' ≠ l) :
    Machine.cached u l' = Machine.cached s l' := by
  rw [Machine.cached, Machine.cached, h.entries l' hl]

theorem OnlyLine.dirty {l' : LineId} (hl : l' ≠ l) : Machine.dirty u l' = Machine.dirty s l' := by
  rw [Machine.dirty, Machine.dirty, h.entries l' hl]

theorem OnlyLine.memByte (p : PASpace) (a : Nat)
    (ha : p ≠ l.space ∨ a < lineBase s.cfg l ∨ lineBase s.cfg l + s.cfg.lineBytes ≤ a) :
    Machine.memByte u p a = Machine.memByte s p a := by
  rw [Machine.memByte, Machine.memByte, h.cfg, h.bytes p a ha]

theorem OnlyLine.memLine {l' : LineId} (hl : l' ≠ l) :
    Machine.memLine u l' = Machine.memLine s l' := by
  rw [Machine.memLine, Machine.memLine, h.cfg]
  refine Memory.readBytes_congr fun x hx hx' => h.bytes _ _ ?_
  by_cases hp : l'.space = l.space
  · have hi : l'.idx ≠ l.idx := fun hi => hl (by cases l'; cases l; simp_all)
    rcases lines_disjoint s.cfg hi with hd | hd <;> omega
  · exact .inl hp

end

/-! ## The three updates of a line -/

theorem lineId_idx_ne {l l' : LineId} (h : l' ≠ l) (hp : l'.space = l.space) : l'.idx ≠ l.idx :=
  fun hi => h (by cases l; cases l'; simp_all)

theorem setLine_onlyLine (l : LineId) (d : List Byte) (b : Bool) (s : State) :
    OnlyLine l s (setLine l d b s) where
  fields := rfl
  entries l' hl := by
    rw [cacheEntry, cacheEntry, setLine, State.setCache_cache, Banked.get_set]
    split
    · rename_i hp
      rw [CacheBank.lookup_put_other _ _ (lineId_idx_ne hl hp), hp]
    · rfl
  bytes _ _ _ := rfl

theorem dropLine_onlyLine (l : LineId) (s : State) : OnlyLine l s (dropLine l s) where
  fields := rfl
  entries l' hl := by
    rw [cacheEntry, cacheEntry, dropLine, State.setCache_cache, Banked.get_set]
    split
    · rename_i hp
      rw [CacheBank.lookup_drop_other _ (lineId_idx_ne hl hp), hp]
    · rfl
  bytes _ _ _ := rfl

theorem writeLine_onlyLine (l : LineId) (d : List Byte) (s : State) :
    OnlyLine l s (writeLine l d s) where
  fields := rfl
  entries _ _ := rfl
  bytes p a ha := by
    rw [writeLine, State.setMem_mem, Banked.get_set]
    split
    · subst p
      rw [Memory.read_writeBytes_other]
      have := List.length_take_le s.cfg.lineBytes d
      rcases ha with ha | ha
      · exact absurd rfl ha
      · omega
    · rfl

@[simp] theorem cacheEntry_setLine (l : LineId) (d : List Byte) (b : Bool) (s : State) :
    cacheEntry (setLine l d b s) l = some { idx := l.idx, data := d, dirty := b } := by
  rw [cacheEntry, setLine, State.setCache_cache, Banked.get_set_same]
  exact CacheBank.lookup_put_same _ { idx := l.idx, data := d, dirty := b }

@[simp] theorem cacheEntry_dropLine (l : LineId) (s : State) :
    cacheEntry (dropLine l s) l = none := by
  rw [cacheEntry, dropLine, State.setCache_cache, Banked.get_set_same,
    CacheBank.lookup_drop_same]

@[simp] theorem cacheEntry_writeLine (l l' : LineId) (d : List Byte) (s : State) :
    cacheEntry (writeLine l d s) l' = cacheEntry s l' := rfl

@[simp] theorem memLine_setLine (l l' : LineId) (d : List Byte) (b : Bool) (s : State) :
    memLine (setLine l d b s) l' = memLine s l' := rfl

@[simp] theorem memLine_dropLine (l l' : LineId) (s : State) :
    memLine (dropLine l s) l' = memLine s l' := rfl

/-- Writing a line's value and reading the line gives the value. -/
theorem memLine_writeLine {l : LineId} {d : List Byte} {s : State} (hm : (s.mem.get l.space).wf)
    (hd : d.length = s.cfg.lineBytes) : memLine (writeLine l d s) l = d := by
  rw [memLine, writeLine, State.setMem_mem, Banked.get_set_same, State.setMem_cfg, ← hd,
    List.take_length]
  exact Memory.readBytes_writeBytes_same hm _ d

@[simp] theorem cached_of_entry {s : State} {l : LineId} {e : CacheLine}
    (h : cacheEntry s l = some e) : cached s l = some e.data := by
  rw [cached, h]
  rfl

theorem cached_none_iff {s : State} {l : LineId} : cached s l = none ↔ cacheEntry s l = none := by
  rw [cached, Option.map_eq_none_iff]

theorem cached_some_iff {s : State} {l : LineId} {d : List Byte} :
    cached s l = some d ↔ ∃ e, cacheEntry s l = some e ∧ e.data = d := by
  rw [cached, Option.map_eq_some_iff]

theorem dirty_of_entry {s : State} {l : LineId} {e : CacheLine} (h : cacheEntry s l = some e) :
    dirty s l = e.dirty := by
  rw [dirty, h]

/-- `dirty` is false where `cached` is none (R21). -/
theorem dirty_of_none {s : State} {l : LineId} (h : cacheEntry s l = none) : dirty s l = false := by
  rw [dirty, h]

/-! ## Clean and invalidate -/

/-- What a clean and invalidate does: nothing where the line is outside MEM_DOMAIN or not cached; otherwise it drops the line,
after writing it back if it is dirty. -/
theorem cleanInvalidate_cases (l : LineId) (s : State) :
    ((lineExists s.cfg l = false ∨ cacheEntry s l = none) ∧ cleanInvalidate l s = s) ∨
    (∃ e, lineExists s.cfg l = true ∧ cacheEntry s l = some e ∧
      cleanInvalidate l s = dropLine l (if e.dirty then writeLine l e.data s else s)) := by
  rw [cleanInvalidate]
  split
  · cases hc : cacheEntry s l with
    | none => exact .inl ⟨.inr rfl, rfl⟩
    | some e => exact .inr ⟨e, ‹_›, rfl, rfl⟩
  · rename_i hx
    exact .inl ⟨.inl (by simpa using hx), rfl⟩

theorem cleanInvalidate_onlyLine (l : LineId) (s : State) :
    OnlyLine l s (cleanInvalidate l s) := by
  rcases cleanInvalidate_cases l s with ⟨-, h⟩ | ⟨e, -, -, h⟩ <;> rw [h]
  · exact OnlyLine.refl l s
  · split
    · exact (writeLine_onlyLine l _ s).trans (dropLine_onlyLine l _)
    · exact dropLine_onlyLine l s

theorem cacheEntry_cleanInvalidate {l : LineId} {s : State} (h : lineExists s.cfg l = true) :
    cacheEntry (cleanInvalidate l s) l = none := by
  rcases cleanInvalidate_cases l s with ⟨h' | h', hc⟩ | ⟨e, -, -, hc⟩
  · simp [h] at h'
  · rw [hc, h']
  · rw [hc, cacheEntry_dropLine]

theorem cleanInvalidate_of_not_exists {l : LineId} {s : State} (h : lineExists s.cfg l = false) :
    cleanInvalidate l s = s := by
  simp [cleanInvalidate, h]

theorem cleanInvalidate_of_none {l : LineId} {s : State} (h : cacheEntry s l = none) :
    cleanInvalidate l s = s := by
  simp [cleanInvalidate, h]

/-- Clean and invalidate looks at the configuration, the caches and memory alone: it commutes with a change of anything else. -/
theorem cleanInvalidate_congr (l : LineId) (s u : State) (hc : u.cache = s.cache)
    (hm : u.mem = s.mem) (he : lineExists u.cfg l = lineExists s.cfg l)
    (hb : u.cfg.lineBytes = s.cfg.lineBytes) :
    cleanInvalidate l u =
      { u with cache := (cleanInvalidate l s).cache, mem := (cleanInvalidate l s).mem } := by
  have hent : cacheEntry u l = cacheEntry s l := by rw [cacheEntry, cacheEntry, hc]
  have hbase : lineBase u.cfg l = lineBase s.cfg l := by rw [lineBase, lineBase, hb]
  have same : ({ u with cache := s.cache, mem := s.mem } : State) = u := by
    rw [← hc, ← hm]
  rcases cleanInvalidate_cases l s with ⟨h | h, hs⟩ | ⟨e, hx, h, hs⟩
  · rw [hs, cleanInvalidate_of_not_exists (he.trans h), same]
  · rw [hs, cleanInvalidate_of_none (hent.trans h), same]
  · have hu : cleanInvalidate l u = dropLine l (if e.dirty then writeLine l e.data u else u) := by
      simp [cleanInvalidate, he, hx, hent, h]
    rw [hu, hs]
    cases e.dirty <;>
      simp [dropLine, writeLine, State.setCache, State.setMem, hc, hm, hb, hbase]

/-! ## The stores a state holds: canonical forms and lengths -/

/-- The part of the invariant that speaks of memory and caches. -/
structure Stored (s : State) : Prop where
  memWf : ∀ p, (s.mem.get p).wf
  memExists : ∀ p, ∀ c ∈ s.mem.get p,
    lineExists s.cfg { space := p, idx := c.1 / s.cfg.lineBytes } = true
  cacheWf : ∀ p, (s.cache.get p).wf
  cacheLength : ∀ p, ∀ e ∈ s.cache.get p, e.data.length = s.cfg.lineBytes
  cacheExists : ∀ p, ∀ e ∈ s.cache.get p, lineExists s.cfg { space := p, idx := e.idx } = true

/-- A change of fields that no store lemma reads keeps `Stored`. -/
theorem Stored.congr {s u : State} (h : Stored s) (hm : u.mem = s.mem) (hc : u.cache = s.cache)
    (hf : u.cfg = s.cfg) : Stored u := by
  refine ⟨?_, ?_, ?_, ?_, ?_⟩ <;> simp only [hm, hc, hf]
  exacts [h.memWf, h.memExists, h.cacheWf, h.cacheLength, h.cacheExists]

theorem Stored.entry_length {s : State} (h : Stored s) {l : LineId} {e : CacheLine}
    (he : cacheEntry s l = some e) : e.data.length = s.cfg.lineBytes :=
  h.cacheLength l.space e (CacheBank.mem_of_lookup he).1

theorem Stored.entry_exists {s : State} (h : Stored s) {l : LineId} {e : CacheLine}
    (he : cacheEntry s l = some e) : lineExists s.cfg l = true := by
  have := CacheBank.mem_of_lookup he
  have hx := h.cacheExists l.space e this.1
  rwa [this.2] at hx

theorem Stored.setLine {s : State} (h : Stored s) {l : LineId} {d : List Byte} (b : Bool)
    (hd : d.length = s.cfg.lineBytes) (hx : lineExists s.cfg l = true) :
    Stored (setLine l d b s) where
  memWf := h.memWf
  memExists := h.memExists
  cacheWf p := by
    rw [Machine.setLine, State.setCache_cache, Banked.get_set]
    split
    · exact CacheBank.put_wf (h.cacheWf _) _
    · exact h.cacheWf p
  cacheLength p e he := by
    rw [Machine.setLine, State.setCache_cache, Banked.get_set] at he
    split at he
    · rcases CacheBank.mem_put he with rfl | he
      · exact hd
      · exact h.cacheLength _ e he
    · exact h.cacheLength p e he
  cacheExists p e he := by
    rw [Machine.setLine, State.setCache_cache, Banked.get_set] at he
    split at he
    · subst p
      rcases CacheBank.mem_put he with rfl | he
      · exact hx
      · exact h.cacheExists _ e he
    · exact h.cacheExists p e he

theorem Stored.dropLine {s : State} (h : Stored s) (l : LineId) : Stored (dropLine l s) where
  memWf := h.memWf
  memExists := h.memExists
  cacheWf p := by
    rw [Machine.dropLine, State.setCache_cache, Banked.get_set]
    split
    · exact CacheBank.drop_wf (h.cacheWf _) _
    · exact h.cacheWf p
  cacheLength p e he := by
    rw [Machine.dropLine, State.setCache_cache, Banked.get_set] at he
    split at he
    · exact h.cacheLength _ e (CacheBank.mem_drop.mp he).1
    · exact h.cacheLength p e he
  cacheExists p e he := by
    rw [Machine.dropLine, State.setCache_cache, Banked.get_set] at he
    split at he
    · subst p
      exact h.cacheExists _ e (CacheBank.mem_drop.mp he).1
    · exact h.cacheExists p e he

theorem Stored.writeLine {s : State} (h : Stored s) {l : LineId} (d : List Byte)
    (hx : lineExists s.cfg l = true) : Stored (writeLine l d s) where
  memWf p := by
    rw [Machine.writeLine, State.setMem_mem, Banked.get_set]
    split
    · exact Memory.writeBytes_wf (h.memWf _) _ _
    · exact h.memWf p
  memExists p c hc := by
    rw [Machine.writeLine, State.setMem_mem, Banked.get_set] at hc
    split at hc
    · subst p
      rcases Memory.mem_writeBytes hc with hc | hc
      · exact h.memExists _ c hc
      · have := List.length_take_le s.cfg.lineBytes d
        have hi := (in_line_iff s.cfg l c.1).mp ⟨hc.1, by omega⟩
        show lineExists s.cfg { space := l.space, idx := c.1 / s.cfg.lineBytes } = true
        rw [hi]
        exact hx
    · exact h.memExists p c hc
  cacheWf := h.cacheWf
  cacheLength := h.cacheLength
  cacheExists := h.cacheExists

theorem Stored.cleanInvalidate {s : State} (h : Stored s) (l : LineId) :
    Stored (Machine.cleanInvalidate l s) := by
  rcases cleanInvalidate_cases l s with ⟨-, hc⟩ | ⟨e, hx, -, hc⟩ <;> rw [hc]
  · exact h
  · split
    · exact (h.writeLine e.data hx).dropLine l
    · exact h.dropLine l

/-- After a clean and invalidate, memory holds the value cached before if that was dirty, and what it held otherwise. -/
theorem Stored.memLine_cleanInvalidate {s : State} (h : Stored s) {l : LineId} {e : CacheLine}
    (he : cacheEntry s l = some e) :
    memLine (Machine.cleanInvalidate l s) l = if e.dirty then e.data else memLine s l := by
  rcases cleanInvalidate_cases l s with ⟨h' | h', hc⟩ | ⟨e', -, he', hc⟩
  · rw [h.entry_exists he] at h'
    cases h'
  · rw [he] at h'
    cases h'
  · obtain rfl : e = e' := by simpa [he] using he'
    rw [hc, memLine_dropLine]
    split
    · exact memLine_writeLine (h.memWf _) (h.entry_length he)
    · rfl

/-! ## Pending requests -/

theorem pendingInsert_perm (l : LineId) (q : List LineId) : (pendingInsert l q).Perm (l :: q) := by
  induction q with
  | nil => exact .refl _
  | cons r q ih =>
    rw [pendingInsert]
    split
    · exact .refl _
    · exact (ih.cons r).trans (.swap l r q)

theorem LineId.le_refl (a : LineId) : LineId.le a a = true := by simp [LineId.le]

/-- Taking out what was just inserted gives the multiset back. -/
theorem pendingInsert_erase (l : LineId) (q : List LineId) : (pendingInsert l q).erase l = q := by
  induction q with
  | nil => simp [pendingInsert]
  | cons r q ih =>
    rw [pendingInsert]
    split
    · simp
    · rename_i h
      have hr : r ≠ l := fun hr => h (hr ▸ LineId.le_refl l)
      rw [List.erase_cons_tail (by simpa using hr), ih]

theorem LineId.le_total (a b : LineId) : LineId.le a b = true ∨ LineId.le b a = true := by
  obtain ⟨p, i⟩ := a
  obtain ⟨q, j⟩ := b
  cases p <;> cases q <;> simp [LineId.le, PASpace.rank, Nat.le_total]

theorem LineId.le_trans {a b c : LineId} (h : LineId.le a b = true) (h' : LineId.le b c = true) :
    LineId.le a c = true := by
  obtain ⟨p, i⟩ := a
  obtain ⟨q, j⟩ := b
  obtain ⟨r, k⟩ := c
  cases p <;> cases q <;> cases r <;> simp_all [LineId.le, PASpace.rank] <;> omega

theorem pendingInsert_sorted {q : List LineId}
    (h : q.Pairwise (fun a b => LineId.le a b = true)) (l : LineId) :
    (pendingInsert l q).Pairwise (fun a b => LineId.le a b = true) := by
  induction q with
  | nil => simp [pendingInsert]
  | cons r q ih =>
    obtain ⟨hr, hq⟩ := List.pairwise_cons.mp h
    rw [pendingInsert]
    split
    · rename_i hl
      refine List.pairwise_cons.mpr ⟨fun x hx => ?_, h⟩
      rcases List.mem_cons.mp hx with rfl | hx
      · exact hl
      · exact LineId.le_trans hl (hr x hx)
    · rename_i hl
      refine List.pairwise_cons.mpr ⟨fun x hx => ?_, ih hq⟩
      rcases List.mem_cons.mp ((pendingInsert_perm l q).mem_iff.mp hx) with rfl | hx
      · exact (LineId.le_total x r).resolve_left hl
      · exact hr x hx

/-! ## The agents -/

/-- What the maintenance agent's turn does. -/
theorem maintain_cases (l : LineId) (s : State) :
    (l ∉ s.pendingDC ∧ maintain l s = s) ∨
    (l ∈ s.pendingDC ∧
      maintain l s = cleanInvalidate l (s.setPending (s.pendingDC.erase l))) := by
  rw [maintain]
  split
  · exact .inr ⟨‹_›, rfl⟩
  · exact .inl ⟨‹_›, rfl⟩

theorem maintain_onlyLine (l : LineId) (s : State) :
    OnlyLine l (s.setPending (s.pendingDC.erase l)) (maintain l s) := by
  rcases maintain_cases l s with ⟨hl, h⟩ | ⟨-, h⟩ <;> rw [h]
  · rw [List.erase_of_not_mem hl]
    exact OnlyLine.refl l s
  · exact cleanInvalidate_onlyLine l _

/-- Clean and invalidate commutes with a change of the pending requests. -/
theorem cleanInvalidate_setPending (l : LineId) (s : State) (q : List LineId) :
    cleanInvalidate l (s.setPending q) = (cleanInvalidate l s).setPending q := by
  refine (cleanInvalidate_congr l s (s.setPending q) rfl rfl rfl rfl).trans ?_
  conv_rhs => rw [(cleanInvalidate_onlyLine l s).fields]
  rfl

/-- Clean and invalidate commutes with a change of the turns decided. -/
theorem cleanInvalidate_setSchedule (l : LineId) (s : State) (ts : List Turn) :
    cleanInvalidate l (s.setSchedule ts) = (cleanInvalidate l s).setSchedule ts := by
  refine (cleanInvalidate_congr l s (s.setSchedule ts) rfl rfl rfl rfl).trans ?_
  conv_rhs => rw [(cleanInvalidate_onlyLine l s).fields]
  rfl

/-- Clean and invalidate does not look at the scheduler's fields. -/
theorem cleanInvalidate_scheduler (l : LineId) (s : State) (ts : List Turn) (n : Nat) :
    cleanInvalidate l ((s.setSchedule ts).setChoices n) =
      ((cleanInvalidate l s).setSchedule ts).setChoices n := by
  refine (cleanInvalidate_congr l s ((s.setSchedule ts).setChoices n) rfl rfl rfl rfl).trans ?_
  conv_rhs => rw [(cleanInvalidate_onlyLine l s).fields]
  rfl

/-- The maintenance agent does not look at the scheduler's fields. -/
theorem maintain_scheduler (l : LineId) (s : State) (ts : List Turn) (n : Nat) :
    maintain l ((s.setSchedule ts).setChoices n) =
      ((maintain l s).setSchedule ts).setChoices n := by
  unfold maintain performDC
  rw [State.setChoices_pendingDC, State.setSchedule_pendingDC]
  split
  · exact cleanInvalidate_scheduler l (s.setPending (s.pendingDC.erase l)) ts n
  · rfl

/-- The maintenance agent does not look at the turns decided. -/
theorem maintain_setSchedule (l : LineId) (s : State) (ts : List Turn) :
    maintain l (s.setSchedule ts) = (maintain l s).setSchedule ts := by
  unfold maintain performDC
  rw [State.setSchedule_pendingDC]
  split
  · rw [cleanInvalidate_setPending, cleanInvalidate_setPending, cleanInvalidate_setSchedule]
    rfl
  · rfl

/-- What the environment agent's turn does: nothing on a line outside MEM_DOMAIN, else one of R24's five moves. -/
theorem environment_cases (l : LineId) (m : EnvMove) (s : State) :
    (environment l m s = s) ∨
    (lineExists s.cfg l = true ∧
      ((m = .fill ∧ cached s l = none ∧
          environment l m s = setLine l (memLine s l) false s) ∨
       (m = .evict ∧ environment l m s = cleanInvalidate l s) ∨
       (∃ e, m = .cleanBG ∧ cacheEntry s l = some e ∧ e.dirty = true ∧
          environment l m s = setLine l e.data false (writeLine l e.data s)) ∨
       (∃ d, m = .write d ∧ d.length = s.cfg.lineBytes ∧
          environment l m s = setLine l d true s) ∨
       (∃ d, m = .writeThrough d ∧ d.length = s.cfg.lineBytes ∧ cached s l = none ∧
          environment l m s = writeLine l d s))) := by
  unfold environment
  split
  · rename_i hx
    cases m with
    | fill =>
      dsimp only [envFill]
      split
      · exact .inr ⟨hx, .inl ⟨rfl, ‹_›, rfl⟩⟩
      · exact .inl rfl
    | evict => exact .inr ⟨hx, .inr (.inl ⟨rfl, rfl⟩)⟩
    | cleanBG =>
      dsimp only [envCleanBG]
      split
      · exact .inl rfl
      · rename_i d hd
        obtain ⟨e, he, rfl⟩ := cached_some_iff.mp hd
        rw [dirty_of_entry he]
        split
        · exact .inr ⟨hx, .inr (.inr (.inl ⟨e, rfl, he, ‹_›, rfl⟩))⟩
        · exact .inl rfl
    | write d =>
      dsimp only [envWrite]
      split
      · exact .inr ⟨hx, .inr (.inr (.inr (.inl ⟨d, rfl, ‹_›, rfl⟩)))⟩
      · exact .inl rfl
    | writeThrough d =>
      dsimp only [envWriteThrough]
      split
      · split
        · exact .inr ⟨hx, .inr (.inr (.inr (.inr ⟨d, rfl, ‹_›, ‹_›, rfl⟩)))⟩
        · exact .inl rfl
      · exact .inl rfl
  · exact .inl rfl

theorem environment_onlyLine (l : LineId) (m : EnvMove) (s : State) :
    OnlyLine l s (environment l m s) := by
  rcases environment_cases l m s with h | ⟨-, ⟨-, -, h⟩ | ⟨-, h⟩ | ⟨e, -, -, -, h⟩ | ⟨d, -, -, h⟩ |
    ⟨d, -, -, -, h⟩⟩ <;> rw [h]
  · exact OnlyLine.refl l s
  · exact setLine_onlyLine l _ _ s
  · exact cleanInvalidate_onlyLine l s
  · exact (writeLine_onlyLine l _ s).trans (setLine_onlyLine l _ _ _)
  · exact setLine_onlyLine l _ _ s
  · exact writeLine_onlyLine l _ s

/-- The environment agent does not look at the scheduler's fields. -/
theorem environment_scheduler (l : LineId) (m : EnvMove) (s : State) (ts : List Turn) (n : Nat) :
    environment l m ((s.setSchedule ts).setChoices n) =
      ((environment l m s).setSchedule ts).setChoices n := by
  have hm : memLine ((s.setSchedule ts).setChoices n) l = memLine s l := rfl
  have hc : cached ((s.setSchedule ts).setChoices n) l = cached s l := rfl
  have hd : dirty ((s.setSchedule ts).setChoices n) l = dirty s l := rfl
  unfold environment
  rw [State.setChoices_cfg, State.setSchedule_cfg]
  split
  · cases m with
    | fill => dsimp only [envFill]; rw [hc, hm]; split <;> rfl
    | evict => exact cleanInvalidate_scheduler l s ts n
    | cleanBG => dsimp only [envCleanBG]; rw [hc, hd]; cases cached s l <;> cases dirty s l <;> rfl
    | write d => dsimp only [envWrite]; split <;> rfl
    | writeThrough d => dsimp only [envWriteThrough]; rw [hc]; cases cached s l <;> split <;> rfl
  · rfl

/-! ## The scheduler -/

/-- Taking a turn changes the scheduler's own fields alone. -/
theorem takeTurn_fields (s : State) :
    (takeTurn s).2 =
      { s with schedule := (takeTurn s).2.schedule, choices := (takeTurn s).2.choices } := by
  rw [takeTurn]
  split <;> rfl

@[simp] theorem takeTurn_cfg (s : State) : (takeTurn s).2.cfg = s.cfg := by rw [takeTurn_fields]
@[simp] theorem takeTurn_program (s : State) : (takeTurn s).2.program = s.program := by rw [takeTurn_fields]
@[simp] theorem takeTurn_regs (s : State) : (takeTurn s).2.regs = s.regs := by rw [takeTurn_fields]
@[simp] theorem takeTurn_pc (s : State) : (takeTurn s).2.pc = s.pc := by rw [takeTurn_fields]
@[simp] theorem takeTurn_el (s : State) : (takeTurn s).2.el = s.el := by rw [takeTurn_fields]
@[simp] theorem takeTurn_ss (s : State) : (takeTurn s).2.ss = s.ss := by rw [takeTurn_fields]
@[simp] theorem takeTurn_el2Enabled (s : State) : (takeTurn s).2.el2Enabled = s.el2Enabled := by rw [takeTurn_fields]
@[simp] theorem takeTurn_hcrEl2Nv (s : State) : (takeTurn s).2.hcrEl2Nv = s.hcrEl2Nv := by rw [takeTurn_fields]
@[simp] theorem takeTurn_cache (s : State) : (takeTurn s).2.cache = s.cache := by rw [takeTurn_fields]
@[simp] theorem takeTurn_mem (s : State) : (takeTurn s).2.mem = s.mem := by rw [takeTurn_fields]
@[simp] theorem takeTurn_pendingDC (s : State) : (takeTurn s).2.pendingDC = s.pendingDC := by rw [takeTurn_fields]
@[simp] theorem takeTurn_fault (s : State) : (takeTurn s).2.fault = s.fault := by rw [takeTurn_fields]

@[simp] theorem takeTurn_cacheEntry (s : State) (l : LineId) :
    cacheEntry (takeTurn s).2 l = cacheEntry s l := by
  rw [cacheEntry, cacheEntry, takeTurn_cache]

@[simp] theorem takeTurn_memLine (s : State) (l : LineId) :
    memLine (takeTurn s).2 l = memLine s l := by
  rw [memLine, memLine, takeTurn_mem, takeTurn_cfg]

theorem takeTurn_cons {s : State} {t : Turn} {ts : List Turn} (h : s.schedule = t :: ts) :
    takeTurn s = (t, s.setSchedule ts) := by
  rw [takeTurn, h]

theorem takeTurn_nil {s : State} (h : s.schedule = []) :
    takeTurn s = (Config.freeTurn s.choices, s.setChoices (s.choices + 1)) := by
  rw [takeTurn, h]

end Sys2Proof.Machine
end

