-- ==== Sys2Proof/Laws/PerInstr.lean ====
section
/-!
SUPPORT. The per-instruction statements: about an instruction as syntax.
-/

namespace Sys2Proof.Laws.SysFormat

/-- The instruction's word is a System instruction's: four bytes, the fixed bits [31:22] of R52, L = 0, and the page's field
values (R51) at the positions of R52. -/
def Statement (i : Instr) : Prop :=
  i.wellFormed = true ∧ (encode i).length = 4 ∧
  (encodeWord i).extractLsb' 22 10 = 0b1101010100 ∧ (encodeWord i).extractLsb' 21 1 = 0 ∧
  (encodeWord i).extractLsb' 19 2 = 0b01 ∧ (encodeWord i).extractLsb' 16 3 = 0b100 ∧
  (encodeWord i).extractLsb' 12 4 = 0b0111 ∧ (encodeWord i).extractLsb' 8 4 = 0b1110 ∧
  (encodeWord i).extractLsb' 5 3 = 0b000

theorem dcCipae (t : RegNum) : Statement (.dcCipae t) := by
  refine ⟨rfl, rfl, ?_⟩
  revert t
  decide

end Sys2Proof.Laws.SysFormat
end

