-- ==== Sys2Proof/Laws/Step.lean ====
section
/-!
SUPPORT. What the instruction, the PE and a step can do, said once: each lemma lists every case.
-/

namespace Sys2Proof.Machine

/-- The line an operand names is a Realm line (R30). -/
theorem targetLine_space {c : Config} {v : Word64} {l : LineId} (h : targetLine c v = some l) :
    l = { space := .realm, idx := lineOf c (operandOf v).pa } ∧
      (operandOf v).nse = 1 ∧ (operandOf v).ns = 1 := by
  unfold targetLine targetPAS at h
  dsimp only at h
  split at h
  · rename_i p hp
    split at hp
    · obtain rfl : PASpace.realm = p := by simpa using hp
      exact ⟨by simpa using h.symm, ‹_ ∧ _›⟩
    · cases hp
  · cases h

/-- What the request part of DC CIPAE does (R69, R70, R77). -/
theorem requestTarget_cases (v : Word64) (s : State) :
    (targetLine s.cfg v = none ∧ requestTarget v s = s) ∨
    (∃ l, targetLine s.cfg v = some l ∧
      ((s.cfg.dcAtomic = false ∧
          requestTarget v s = s.setPending (pendingInsert l s.pendingDC)) ∨
       (s.cfg.dcAtomic = true ∧ requestTarget v s = cleanInvalidate l s))) := by
  unfold requestTarget
  cases h : targetLine s.cfg v with
  | none => exact .inl ⟨rfl, rfl⟩
  | some l =>
    refine .inr ⟨l, rfl, ?_⟩
    dsimp only [issueDC]
    cases hd : s.cfg.dcAtomic with
    | false => exact .inl ⟨rfl, rfl⟩
    | true => exact .inr ⟨rfl, rfl⟩

/-- What DC CIPAE does with any DC_FAULT: record a failed check, refuse under RES0_STRICT, record the hook's answer, or
complete. -/
theorem dcCipaeWith_cases (hook : DCFault) (t : RegNum) (s : State) :
    (∃ f, accessCheck s = some f ∧ dcCipaeWith hook t s = .next (raise f s)) ∨
    (accessCheck s = none ∧ s.cfg.res0Strict = true ∧ (operandOf (readX t s)).res0 ≠ 0 ∧
      dcCipaeWith hook t s = .refused .res0Operand) ∨
    (accessCheck s = none ∧ (s.cfg.res0Strict = true → (operandOf (readX t s)).res0 = 0) ∧
      ((∃ f, hook (readX t s) s = some f ∧ dcCipaeWith hook t s = .next (raise f s)) ∨
       (hook (readX t s) s = none ∧
        dcCipaeWith hook t s = .next (advancePC (requestTarget (readX t s) s))))) := by
  unfold dcCipaeWith
  cases ha : accessCheck s with
  | some f => exact .inl ⟨f, rfl, rfl⟩
  | none =>
    dsimp only
    split
    · rename_i h
      exact .inr (.inl ⟨rfl, h.1, h.2, rfl⟩)
    · rename_i h
      refine .inr (.inr ⟨rfl, fun hs => by_contra fun hr => h ⟨hs, hr⟩, ?_⟩)
      cases hook (readX t s) s with
      | some f => exact .inl ⟨f, rfl, rfl⟩
      | none => exact .inr ⟨rfl, rfl⟩

/-- What DC CIPAE does with the adopted DC_FAULT. -/
theorem execDcCipae_cases (t : RegNum) (s : State) :
    (∃ f, accessCheck s = some f ∧ exec (.dcCipae t) s = .next (raise f s)) ∨
    (accessCheck s = none ∧ s.cfg.res0Strict = true ∧ (operandOf (readX t s)).res0 ≠ 0 ∧
      exec (.dcCipae t) s = .refused .res0Operand) ∨
    (accessCheck s = none ∧ (s.cfg.res0Strict = true → (operandOf (readX t s)).res0 = 0) ∧
      exec (.dcCipae t) s = .next (advancePC (requestTarget (readX t s) s))) := by
  rcases dcCipaeWith_cases noDCFault t s with h | h | ⟨h, h', ⟨f, hf, -⟩ | ⟨-, h''⟩⟩
  · exact .inl h
  · exact .inr (.inl h)
  · cases hf
  · exact .inr (.inr ⟨h, h', h''⟩)

/-- The two ways DC CIPAE reaches a next state: a failed check recorded, or completion. -/
theorem exec_next_cases {i : Instr} {s u : State} (h : exec i s = .next u) :
    ∃ t, i = .dcCipae t ∧
      ((∃ f, accessCheck s = some f ∧ u = raise f s) ∨
       (accessCheck s = none ∧ u = advancePC (requestTarget (readX t s) s))) := by
  cases i with
  | dcCipae t =>
    refine ⟨t, rfl, ?_⟩
    rcases execDcCipae_cases t s with ⟨f, hf, hx⟩ | ⟨-, -, -, hx⟩ | ⟨ha, -, hx⟩ <;> rw [hx] at h
    · exact .inl ⟨f, hf, by simpa using h.symm⟩
    · cases h
    · exact .inr ⟨ha, by simpa using h.symm⟩

/-- The request part of DC CIPAE does not look at the scheduler's fields. -/
theorem requestTarget_scheduler (v : Word64) (s : State) (ts : List Turn) (n : Nat) :
    requestTarget v ((s.setSchedule ts).setChoices n) =
      ((requestTarget v s).setSchedule ts).setChoices n := by
  unfold requestTarget
  rw [State.setChoices_cfg, State.setSchedule_cfg]
  cases targetLine s.cfg v with
  | none => rfl
  | some l =>
    dsimp only [issueDC]
    rw [State.setChoices_cfg, State.setSchedule_cfg]
    split
    · exact cleanInvalidate_scheduler l s ts n
    · rfl

/-- DC CIPAE does not look at the scheduler's fields. -/
theorem exec_scheduler {i : Instr} {s u : State} (h : exec i s = .next u) (ts : List Turn) (n : Nat) :
    exec i ((s.setSchedule ts).setChoices n) = .next ((u.setSchedule ts).setChoices n) := by
  cases i with
  | dcCipae t =>
    have hv : readX t ((s.setSchedule ts).setChoices n) = readX t s := rfl
    have hc : accessCheck ((s.setSchedule ts).setChoices n) = accessCheck s := rfl
    rcases execDcCipae_cases t s with ⟨f, hf, hx⟩ | ⟨-, -, -, hx⟩ | ⟨ha, hr, hx⟩ <;> rw [hx] at h <;> cases h
    · rcases execDcCipae_cases t ((s.setSchedule ts).setChoices n) with ⟨g, hg, hx⟩ | ⟨hg, -⟩ | ⟨hg, -⟩ <;>
        rw [hc, hf] at hg <;> cases hg
      exact hx
    · rcases execDcCipae_cases t ((s.setSchedule ts).setChoices n) with ⟨g, hg, -⟩ | ⟨-, hs, hn, -⟩ | ⟨-, -, hx⟩
      · rw [hc, ha] at hg
        cases hg
      · exact absurd (hr hs) hn
      · rw [hx, hv, requestTarget_scheduler]
        rfl

/-- The text holds bytes between its base and its end alone. -/
theorem textBytes_range {p : Program} {a : Nat} {bs : List Byte} (h : textBytes p a = some bs) :
    p.base.toNat ≤ a ∧ a < programEnd p := by
  unfold textBytes at h
  split at h
  · rename_i h0 _ _ _
    unfold textByte at h0
    split at h0
    · split at h0
      · rename_i w hw
        have := (List.getElem?_eq_some_iff.mp hw).1
        unfold programEnd
        omega
      · cases h0
    · cases h0
  · cases h

/-- What a fetch that gives an instruction found: `pc` in order, and bytes at it that decode to the instruction. -/
theorem fetch_ok {s : State} {i : Instr} (h : fetch s = .ok i) :
    s.pc.toNat % 4 = 0 ∧ s.pc.toNat ≤ 2 ^ 64 - 8 ∧
      ∃ bs rest, textBytes s.program s.pc.toNat = some bs ∧ decode bs = .ok (i, rest) := by
  unfold fetch at h
  split at h
  · cases h
  split at h
  · cases h
  refine ⟨by omega, by omega, ?_⟩
  split at h
  · cases h
  · split at h
    · cases h
      exact ⟨_, _, ‹_›, ‹_›⟩
    · cases h

/-- What a turn that gives a next state did: the PE executed a fetched instruction, or one of the other agents moved. -/
theorem moveAgent_cases {t : Turn} {s u : State} (h : moveAgent t s = .next u) :
    (t = .pe ∧ s.fault = none ∧ ∃ i, fetch s = .ok i ∧ exec i s = .next u) ∨
    (∃ l, t = .maintenance l ∧ u = maintain l s) ∨
    (∃ l m, t = .environment l m ∧ u = environment l m s) := by
  cases t with
  | pe =>
    refine .inl ⟨rfl, ?_⟩
    change stepPE s = .next u at h
    unfold stepPE at h
    split at h
    · cases h
    · refine ⟨‹_›, ?_⟩
      split at h
      · exact ⟨_, ‹_›, h⟩
      · cases h
  | maintenance l => exact .inr (.inl ⟨l, rfl, by cases h; rfl⟩)
  | environment l m => exact .inr (.inr ⟨l, m, rfl, by cases h; rfl⟩)

/-- No agent looks at the scheduler's fields. -/
theorem moveAgent_scheduler {t : Turn} {s u : State} (h : moveAgent t s = .next u) (ts : List Turn) (n : Nat) :
    moveAgent t ((s.setSchedule ts).setChoices n) = .next ((u.setSchedule ts).setChoices n) := by
  rcases moveAgent_cases h with ⟨rfl, hf, i, hi, hx⟩ | ⟨l, rfl, rfl⟩ | ⟨l, m, rfl, rfl⟩
  · show stepPE _ = _
    rw [stepPE, State.setChoices_fault, State.setSchedule_fault, hf]
    dsimp only
    rw [show fetch ((s.setSchedule ts).setChoices n) = .ok i from hi]
    exact exec_scheduler hx ts n
  · exact congrArg _ (maintain_scheduler l s ts n)
  · exact congrArg _ (environment_scheduler l m s ts n)

/-- A step is the move of the agent whose turn it is. -/
theorem step_of_turn {s s' : State} {t : Turn} (h : takeTurn s = (t, s')) : step s = moveAgent t s' := by
  rw [step, h]

/-- What a step that gives a next state did: the PE executed a fetched instruction, or one of the other agents moved. -/
theorem step_cases {s u : State} (h : step s = .next u) :
    ((takeTurn s).1 = .pe ∧ s.fault = none ∧
      ∃ i, fetch (takeTurn s).2 = .ok i ∧ exec i (takeTurn s).2 = .next u) ∨
    (∃ l, (takeTurn s).1 = .maintenance l ∧ u = maintain l (takeTurn s).2) ∨
    (∃ l m, (takeTurn s).1 = .environment l m ∧ u = environment l m (takeTurn s).2) := by
  simpa only [takeTurn_fault] using moveAgent_cases h

/-- A run of one more step, begun with a step that gives a next state. -/
theorem run_succ_of_next {s u : State} (h : step s = .next u) (k : Nat) :
    Host.Core.run core (k + 1) s = Host.Core.run core k u := by
  have hc : core.step s = .next u := h
  simp [Host.Core.run, hc]

/-- A run that gives a next state after one more step began with a step that gives one. -/
theorem run_succ_next {s v : State} {k : Nat} (h : Host.Core.run core (k + 1) s = .next v) :
    ∃ u, step s = .next u ∧ Host.Core.run core k u = .next v := by
  cases hs : step s with
  | next u =>
    rw [run_succ_of_next hs] at h
    exact ⟨u, rfl, h⟩
  | fault f =>
    have hc : core.step s = .fault f := hs
    simp [Host.Core.run, hc] at h
  | refused r =>
    have hc : core.step s = .refused r := hs
    simp [Host.Core.run, hc] at h

/-- The part of the invariant that the operations on lines keep. -/
theorem StateInv.stored {s : State} (h : StateInv s) : Stored s :=
  ⟨h.memWf, h.memExists, h.cacheWf, h.cacheLength, h.cacheExists⟩

end Sys2Proof.Machine
end

