-- ==== Sys2Proof/Tests/Slice0.lean ====
section
/-!
SUPPORT. Tests whose expected results are the vectors of spec/95_test_vectors.md, and one witness for each obligation that
has hypotheses: `test_meets_<Name>` shows states and operands that meet them.
-/

open Sys2Proof Sys2Proof.Machine

namespace Sys2Proof.Tests

/-! ## Decoding -/

/-- The bytes of `DC CIPAE, X17` in the table of 95 section 2.1. -/
theorem test_decode_bytes : decode [0x11, 0x7E, 0x0C, 0xD5] = .ok (.dcCipae 17, []) := rfl

/-- The refused words of 95 section 2.1. -/
theorem test_decode_neighbours :
    (([0xD50C7E20, 0xD50C7EE0, 0xD50C7A00, 0xD50C6E00, 0xD5087E00, 0xD50B7E00, 0xD5147E00, 0xD52C7E00,
      0x550C7E00] : List Nat).all fun w => decodeTableWord 32 w == none) = true := by decide

theorem test_decode_table_word :
    decodeTableWord 32 0xD50C7E00 = some (.dcCipae 0) ∧
    decodeTableWord 32 0xD50C7E1F = some (.dcCipae 31) := by decide

theorem test_decode_truncated : decode [0x00, 0x7E, 0x0C] = .error .truncated := rfl

/-- The spellings of 95 section 2.1 and of R57. -/
theorem test_assembly :
    assembly (.dcCipae 17) = "DC CIPAE, X17" ∧ assembly (.dcCipae 31) = "DC CIPAE, XZR" ∧
    genericAssembly (.dcCipae 0) = "SYS #4, C7, C14, #0, X0" := by decide

/-! ## WellFormed -/

/-- PA_BITS 0 and 53 are refused, 1 and 52 are not (R6). -/
theorem test_config_check :
    Config.wellFormed { resetConfig with paBits := 0 } = false ∧
    Config.wellFormed { resetConfig with paBits := 1 } = true ∧
    Config.wellFormed { resetConfig with paBits := 52 } = true ∧
    Config.wellFormed { resetConfig with paBits := 53 } = false := by decide

/-- A misaligned base and a text that reaches the top of the address space are refused (R12, R105). -/
theorem test_program_check :
    Program.wellFormed { base := 0x1002, words := [] } = false ∧
    Program.wellFormed { base := 0xFFFFFFFFFFFFFFFC, words := [0xD50C7E00] } = false ∧
    Program.wellFormed { base := 0xFFFFFFFFFFFFFFF8, words := [0xD50C7E00] } = true := by decide

/-- Every register number is well formed, the last one too (R53). -/
theorem test_instr_check : Instr.wellFormed (.dcCipae 31) = true := by decide

/-! ## States for the tests -/

/-- The line of the PA 0x80001040 in 64-byte lines (95 section 2.3). -/
def line64 : LineId := { space := .realm, idx := 0x2000041 }

/-- Program 1 of 95 section 3 with the scheduler's turns and the line's value given. -/
def program1 (ts : List Turn) : State :=
  { State.reset with
    program := { base := 0x1000, words := [0xD50C7E00] }
    pc := 0x1000
    regs := (Vector.replicate 31 0).set 0 0xC000000080001040
    cache := { State.reset.cache with
      realm := [{ idx := 0x2000041, data := List.replicate 64 0xC0, dirty := true }] }
    schedule := ts }

/-- The line of the PA 0x80001040 in 4-byte lines: LINE_BYTES is open, and small lines keep the witnesses small. -/
def lineA : LineId := { space := .realm, idx := 0x20000410 }

/-- The next line, which nothing caches. -/
def lineB : LineId := { space := .realm, idx := 0x20000411 }

/-- A line whose PAs are at and above 2^48, outside MEM_DOMAIN. -/
def lineOut : LineId := { space := .realm, idx := 2 ^ 46 }

/-- Two operands in line A, a Reserved operand each way, an operand in line B. Line A is cached dirty. -/
def small (ts : List Turn) (q : List LineId) : State :=
  { State.reset with
    cfg := { resetConfig with lineShift := 2 }
    program := { base := 0x1000, words := [0xD50C7E00] }
    pc := 0x1000
    regs := ((((Vector.replicate 31 0).set 0 0xC000000080001040).set 1 0xFFF0000080001043).set 2
      0x8000000080001040).set 3 0x4000000080001040
    cache := { State.reset.cache with realm := [{ idx := 0x20000410, data := [1, 2, 3, 4], dirty := true }] }
    pendingDC := q
    schedule := ts }

/-- The same state at a level, in a Security state, under an edition, with FEAT_MEC or not, under the trap inputs on. -/
def level (ed : Edition) (mec : Bool) (el : EL) (ss : SecurityState) : State :=
  { small [.pe] [] with
    cfg := { resetConfig with lineShift := 2, edition := ed, featMec := mec }
    el := el, ss := ss, el2Enabled := true, hcrEl2Nv := 1 }

/-- The same state with the two switches as given. -/
def switched (dcAtomic res0Strict : Bool) : State :=
  { small [.pe] [] with
    cfg := { resetConfig with lineShift := 2, dcAtomic := dcAtomic, res0Strict := res0Strict } }

/-- The same state with the text and `pc` as given. -/
def textAt (base pc : Word64) (ws : List Word32) : State :=
  { small [.pe] [] with program := { base := base, words := ws }, pc := pc }

/-- The same state with a fault recorded. -/
def stopped (t : Turn) : State := { small [t] [] with fault := some .undefined }

/-- The same state with line A cached clean. -/
def cleanCopy (t : Turn) : State :=
  { small [t] [] with
    cache := { State.reset.cache with realm := [{ idx := 0x20000410, data := [0, 0, 0, 0], dirty := false }] } }

/-- The invariant holds of the small state, whatever the turns, with no request or one pending. -/
theorem small_inv (ts : List Turn) : StateInv (small ts []) ∧ StateInv (small ts [lineA]) := by
  have h0 : StateInv (small [] []) := by
    constructor <;>
      first
      | decide
      | (intro p; cases p <;> decide)
      | (intro _ h; cases h)
  have h1 : StateInv (small [] [lineA]) :=
    ⟨h0.cfgOk, h0.programOk, h0.pcAligned, h0.memWf, h0.memExists, h0.cacheWf, h0.cacheLength,
      h0.cacheExists, by decide, by decide, h0.trapOldOnly⟩
  exact ⟨⟨h0.cfgOk, h0.programOk, h0.pcAligned, h0.memWf, h0.memExists, h0.cacheWf, h0.cacheLength,
      h0.cacheExists, h0.pendingSorted, h0.atomicEmpty, h0.trapOldOnly⟩,
    ⟨h1.cfgOk, h1.programOk, h1.pcAligned, h1.memWf, h1.memExists, h1.cacheWf, h1.cacheLength,
      h1.cacheExists, h1.pendingSorted, h1.atomicEmpty, h1.trapOldOnly⟩⟩

theorem switched_inv : StateInv (switched true true) := by
  constructor <;>
    first
    | decide
    | (intro p; cases p <;> decide)
    | (intro _ h; cases h)

/-! ## DC CIPAE and the agents, from the vectors -/

/-- I1 of 95 section 2.6, by a step: one request for line 0x2000041, `pc` past the word, no fault. -/
theorem test_dc_cipae_issues :
    ∃ u, step (program1 [.pe]) = .next u ∧
      u.pendingDC = [line64] ∧ u.pc = 0x1004 ∧ u.fault = none :=
  ⟨_, rfl, by decide, by decide, by decide⟩

/-- I4: at EL1 the fault is recorded and `pc` stays. -/
theorem test_dc_cipae_el1 :
    ∃ u, step { program1 [.pe] with el := .el1 } = .next u ∧
      u.pendingDC = [] ∧ u.pc = 0x1000 ∧ u.fault = some .undefined :=
  ⟨_, rfl, by decide, by decide, by decide⟩

set_option maxRecDepth 8000 in
/-- P3 of 95 section 2.5: the dirty line is written back and dropped. -/
theorem test_perform_dirty :
    ∃ u, step { program1 [.maintenance line64] with pendingDC := [line64] } = .next u ∧
      cached u line64 = none ∧ memLine u line64 = List.replicate 64 0xC0 ∧ u.pendingDC = [] :=
  ⟨_, rfl, by decide, by decide, by decide⟩

/-- Program 5 of 95 section 3, its second schedule, in 4-byte lines: a write after the perform stays in the cache, and
memory has the value the perform wrote. -/
theorem test_write_after_perform :
    ∃ u, Host.Core.run core 3
        (small [.pe, .maintenance lineA, .environment lineA (.write [9, 9, 9, 9])] []) = .next u ∧
      cached u lineA = some [9, 9, 9, 9] ∧ dirty u lineA = true ∧ memLine u lineA = [1, 2, 3, 4] :=
  ⟨_, rfl, by decide, by decide, by decide⟩

/-- A word placed by the host is what the next step runs: XZR, so `pc` moves on and nothing is pending (I7). -/
theorem test_with_fetch_word :
    ∃ u, step (State.reset.withFetchWord 32 0xD50C7E1F) = .next u ∧ u.pc = 4 ∧ u.pendingDC = [] :=
  ⟨_, rfl, by decide, by decide⟩

/-- Lines of 95 section 2.3, at 64, 16 and 128 bytes and at 1. -/
theorem test_line_of :
    lineOf resetConfig 0x8000107F = 0x2000041 ∧ lineOf resetConfig 0x80001080 = 0x2000042 ∧
    lineOf resetConfig 0xFFFFFFFFFFFFF = 0x3FFFFFFFFFFF ∧
    lineOf { resetConfig with lineShift := 4 } 0x8000104F = 0x8000104 ∧
    lineOf { resetConfig with lineShift := 7 } 0x80001040 = 0x1000020 ∧
    lineOf { resetConfig with lineShift := 0 } 0x80001040 = 0x80001040 := by decide

/-! ## Witnesses: encoding and operand -/

theorem test_meets_WordIsDcCipaeExactlyUnderMask :
    (0xD50C7E1F : Word32) &&& 0xFFFFFFE0 = 0xD50C7E00 ∧
    (0xD50C7E20 : Word32) &&& 0xFFFFFFE0 ≠ 0xD50C7E00 := by decide

/-- V1 with a line, and V2, V3 and V9 without. -/
theorem test_meets_TargetSpaceIsRealmOnlyAtBothBits :
    targetLine resetConfig 0xC000000080001040 = some line64 ∧
    ∀ t ∈ [(2 : RegNum), 3, 31],
      ¬ ((operandOf (readX t (small [] []))).nse = 1 ∧ (operandOf (readX t (small [] []))).ns = 1) := by decide

theorem test_meets_OperandsNamingOneLineActAlike :
    (small [] []).cfg.res0Strict = false ∧
    (operandOf (readX 0 (small [] []))).ns = (operandOf (readX 1 (small [] []))).ns ∧
    (operandOf (readX 0 (small [] []))).nse = (operandOf (readX 1 (small [] []))).nse ∧
    (operandOf (readX 0 (small [] []))).pa.toNat / (small [] []).cfg.lineBytes =
      (operandOf (readX 1 (small [] []))).pa.toNat / (small [] []).cfg.lineBytes ∧
    readX 0 (small [] []) ≠ readX 1 (small [] []) := by decide

/-! ## Witnesses: who may execute -/

theorem test_meets_AccessTableOfTheNewEdition :
    ∀ el ∈ [EL.el0, .el1, .el2, .el3], ∀ ss ∈ [SecurityState.realm, .root], ∀ mec ∈ [true, false],
      (level .new mec el ss).cfg.edition = .new ∧ (level .new mec el ss).cfg.featMec = mec ∧
      (level .new mec el ss).el = el ∧ (level .new mec el ss).ss = ss := by decide

theorem test_meets_AccessTableOfTheOldEdition :
    (∀ el ∈ [EL.el0, .el1, .el2, .el3], ∀ mec ∈ [true, false],
      (level .old mec el .root).cfg.edition = .old ∧ (level .old mec el .root).cfg.featMec = mec ∧
      (level .old mec el .root).el = el) ∧
    ((level .old true .el1 .root).el2Enabled = true ∧ (level .old true .el1 .root).hcrEl2Nv = 1) ∧
    ¬ ({ level .old true .el1 .root with el2Enabled := false }.el2Enabled = true) ∧
    ¬ ({ level .old true .el1 .root with hcrEl2Nv := 0 }.hcrEl2Nv = 1) := by decide

theorem test_meets_AbsentFeatureDecodesAndIsUndefined :
    (level .new false .el3 .root).cfg.featMec = false ∧
    (level .old false .el1 .root).cfg.featMec = false := by decide

theorem test_meets_NoTrapToAHigherLevelInTheNewEdition :
    ((level .new true .el1 .root).cfg.edition = .new ∧ (level .new true .el1 .root).el = .el1) ∧
    ((level .old true .el1 .root).cfg.edition = .old ∧ (level .old true .el1 .root).cfg.featMec = true ∧
      (level .old true .el1 .root).el = .el1 ∧ (level .old true .el1 .root).el2Enabled = true ∧
      (level .old true .el1 .root).hcrEl2Nv = 1) ∧
    ((small [.pe] []).cfg.featMec = (small [] [lineA]).cfg.featMec ∧
      (small [.pe] []).cfg.edition = (small [] [lineA]).cfg.edition ∧
      (small [.pe] []).el = (small [] [lineA]).el ∧ (small [.pe] []).ss = (small [] [lineA]).ss ∧
      (small [.pe] []).el2Enabled = (small [] [lineA]).el2Enabled ∧
      (small [.pe] []).hcrEl2Nv = (small [] [lineA]).hcrEl2Nv) := by decide

theorem test_meets_LevelsThatMayExecuteAndNeverChange :
    (small [.pe] []).cfg.edition = .new ∧ (∃ u, step (small [.pe] []) = .next u) ∧
    ∃ u, step (small [.maintenance lineA] [lineA]) = .next u :=
  ⟨rfl, ⟨_, rfl⟩, ⟨_, rfl⟩⟩

/-! ## Witnesses: DC CIPAE -/

theorem test_meets_FailedCheckRecordsTheFaultAndNothingElse :
    accessCheck (level .new true .el0 .realm) = some .undefined ∧
    accessCheck (level .old true .el1 .realm) = some (.trapToEL2 0x18) := by decide

theorem test_meets_UndefinedExactlyForItsCauses :
    (level .new true .el2 .root).cfg.edition = .new ∧ (level .new true .el2 .root).fault = none ∧
    (∃ u, exec (.dcCipae 0) (level .new true .el2 .root) = .next u ∧ u.fault = some .undefined) ∧
    ∃ u, exec (.dcCipae 0) (level .new true .el2 .realm) = .next u ∧ u.fault = none :=
  ⟨rfl, rfl, ⟨_, rfl, rfl⟩, ⟨_, rfl, rfl⟩⟩

theorem test_meets_OldEditionTrapIsRecorded :
    ∀ mec ∈ [true, false],
      (level .old mec .el1 .root).cfg.edition = .old ∧ (level .old mec .el1 .root).el = .el1 ∧
      (level .old mec .el1 .root).el2Enabled = true ∧ (level .old mec .el1 .root).hcrEl2Nv = 1 ∧
      (level .old mec .el1 .root).cfg.featMec = mec := by decide

/-- At EL3, at EL2 in Realm, and at EL2 outside Realm under the old edition. -/
theorem test_meets_DcCipaeIssuesARequestForTheRealmLine :
    ∀ s ∈ [small [] [], level .new true .el2 .realm, level .old true .el2 .root],
      s.cfg.featMec = true ∧
      (s.el = .el3 ∨ (s.el = .el2 ∧ (s.ss = .realm ∨ s.cfg.edition = .old))) ∧
      s.cfg.dcAtomic = false ∧ s.cfg.res0Strict = false := by decide

/-- The operands of V1, V6 and V8, and of register 1, which has RES0 bits set. -/
theorem test_meets_DcCipaeIssuesARequestForTheRealmLine_operand :
    (operandOf (readX 0 (small [] []))).nse = 1 ∧ (operandOf (readX 0 (small [] []))).ns = 1 ∧
    (operandOf (readX 1 (small [] []))).nse = 1 ∧ (operandOf (readX 1 (small [] []))).ns = 1 ∧
    (operandOf 0xC00FFFFFFFFFFFFF).nse = 1 ∧ (operandOf 0xC00FFFFFFFFFFFFF).ns = 1 ∧
    (operandOf 0xC000000000000000).nse = 1 ∧ (operandOf 0xC000000000000000).ns = 1 := by decide

/-- V2, V3 and V9. -/
theorem test_meets_DcCipaeWithAReservedTargetOnlyAdvances :
    ∀ s ∈ [small [] [], level .old true .el2 .root, switched false true], accessCheck s = none ∧
      ∀ t ∈ [(2 : RegNum), 3, 31], (s.cfg.res0Strict = true → (operandOf (readX t s)).res0 = 0) ∧
        ¬ ((operandOf (readX t s)).nse = 1 ∧ (operandOf (readX t s)).ns = 1) := by decide

theorem test_meets_DcCipaeXzrOnlyAdvances :
    accessCheck (small [] []) = none ∧ accessCheck (switched true true) = none := by decide

theorem test_meets_OperandIsTheNamedRegister : (0 < 31) ∧ (30 < 31) := by decide

theorem test_meets_Res0OperandsAreRefusedOnlyUnderTheSwitch :
    ((switched false true).cfg.res0Strict = true ∧ accessCheck (switched false true) = none ∧
      (operandOf (readX 1 (switched false true))).res0 ≠ 0) ∧
    (switched false false).cfg.res0Strict = false := by decide

/-- A check that fails, an operand that RES0_STRICT refuses, a hook that answers, and a hook that does not. -/
theorem test_meets_DcFaultHookIsConsultedAfterTheChecks :
    accessCheck (level .new true .el0 .root) = some .undefined ∧
    (accessCheck (switched false true) = none ∧ (switched false true).cfg.res0Strict = true ∧
      (operandOf (readX 1 (switched false true))).res0 ≠ 0) ∧
    (accessCheck (switched false true) = none ∧
      ((switched false true).cfg.res0Strict = true → (operandOf (readX 0 (switched false true))).res0 = 0) ∧
      (fun _ _ => some .undefined : DCFault) (readX 0 (switched false true)) (switched false true) =
        some .undefined) ∧
    noDCFault (readX 0 (switched false true)) (switched false true) = none := by decide

theorem test_meets_AtomicDcCipaeCleansTheLineAtOnce :
    StateInv (switched true true) ∧ accessCheck (switched true true) = none ∧
    ((switched true true).cfg.res0Strict = true → (operandOf (readX 0 (switched true true))).res0 = 0) ∧
    (switched true true).cfg.dcAtomic = true ∧
    targetLine (switched true true).cfg (readX 0 (switched true true)) = some lineA ∧
    lineExists (switched true true).cfg lineA = true ∧
    cached (switched true true) lineA = some [1, 2, 3, 4] ∧ dirty (switched true true) lineA = true :=
  ⟨switched_inv, by decide, by decide, by decide, by decide, by decide, by decide, by decide⟩

theorem test_meets_AtomicCompletionIsIssueThenPerform :
    (small [] []).cfg.dcAtomic = false ∧ accessCheck (small [] []) = none ∧
    targetLine (small [] []).cfg (readX 0 (small [] [])) = some lineA ∧
    ∃ u, exec (.dcCipae 0) (small [] []) = .next u :=
  ⟨by decide, by decide, by decide, _, rfl⟩

/-- A request issued, one performed at once, and a Reserved target. -/
theorem test_meets_DcCipaeFrame :
    (∃ u, exec (.dcCipae 0) (small [] []) = .next u) ∧
    ((switched true true).cfg.dcAtomic = true ∧ (∃ u, exec (.dcCipae 0) (switched true true) = .next u) ∧
      targetLine (switched true true).cfg (readX 0 (switched true true)) = some lineA) ∧
    targetLine (switched true true).cfg (readX 2 (switched true true)) = none :=
  ⟨⟨_, rfl⟩, ⟨by decide, ⟨_, rfl⟩, by decide⟩, by decide⟩

/-- A failed check, a request issued, one performed at once, and a Reserved target. -/
theorem test_meets_DcCipaeIsPrecise :
    (∃ u, exec (.dcCipae 0) (level .new true .el0 .root) = .next u) ∧
    ((∃ u, exec (.dcCipae 0) (small [] []) = .next u) ∧
      targetLine (small [] []).cfg (readX 0 (small [] [])) = some lineA) ∧
    ((∃ u, exec (.dcCipae 0) (switched true true) = .next u) ∧
      targetLine (switched true true).cfg (readX 0 (switched true true)) = some lineA) ∧
    ((∃ u, exec (.dcCipae 2) (small [] []) = .next u) ∧
      targetLine (small [] []).cfg (readX 2 (small [] [])) = none) :=
  ⟨⟨_, rfl⟩, ⟨⟨_, rfl⟩, by decide⟩, ⟨⟨_, rfl⟩, by decide⟩, ⟨_, rfl⟩, by decide⟩

theorem test_meets_DcCipaeSeesNoCacheOrMemory :
    (switched false true).cfg.dcAtomic = false ∧ (∃ u, exec (.dcCipae 0) (switched false true) = .next u) ∧
    exec (.dcCipae 1) (switched false true) = .refused .res0Operand :=
  ⟨rfl, ⟨_, rfl⟩, rfl⟩

/-! ## Witnesses: the PE -/

/-- In the middle of the address space. -/
theorem test_meets_StepRunsTheDecodedInstruction :
    takeTurn (small [.pe] []) = (.pe, small [] []) ∧ (small [.pe] []).fault = none ∧
    (small [.pe] []).pc.toNat % 4 = 0 ∧ (small [.pe] []).pc.toNat ≤ 2 ^ 64 - 8 ∧
    textBytes (small [.pe] []).program (small [.pe] []).pc.toNat = some [0x00, 0x7E, 0x0C, 0xD5] ∧
    decode [0x00, 0x7E, 0x0C, 0xD5] = .ok (.dcCipae 0, []) :=
  ⟨rfl, rfl, rfl, by decide, rfl, rfl⟩

/-- The highest `pc` that is fetched from. -/
def top : State := textAt 0xFFFFFFFFFFFFFFF8 0xFFFFFFFFFFFFFFF8 [0xD50C7E11]

theorem test_meets_StepRunsTheDecodedInstruction_top :
    takeTurn top = (.pe, { top with schedule := [] }) ∧ top.fault = none ∧ top.pc.toNat % 4 = 0 ∧
    top.pc.toNat ≤ 2 ^ 64 - 8 ∧ textBytes top.program top.pc.toNat = some [0x11, 0x7E, 0x0C, 0xD5] ∧
    decode [0x11, 0x7E, 0x0C, 0xD5] = .ok (.dcCipae 17, []) :=
  ⟨rfl, rfl, rfl, by decide, rfl, rfl⟩

theorem test_meets_PlacedInstructionRuns :
    ∀ k ∈ [0, 1],
      takeTurn (textAt 0x1000 (0x1000 + 4 * BitVec.ofNat 64 k) [0xD50C7E00, 0xD50C7E00]) =
        (.pe, { textAt 0x1000 (0x1000 + 4 * BitVec.ofNat 64 k) [0xD50C7E00, 0xD50C7E00] with schedule := [] }) ∧
      (textAt 0x1000 (0x1000 + 4 * BitVec.ofNat 64 k) [0xD50C7E00, 0xD50C7E00]).fault = none ∧
      (textAt 0x1000 (0x1000 + 4 * BitVec.ofNat 64 k) [0xD50C7E00, 0xD50C7E00]).program.wellFormed = true ∧
      (textAt 0x1000 (0x1000 + 4 * BitVec.ofNat 64 k) [0xD50C7E00, 0xD50C7E00]).program.words[k]? =
        some (encodeWord (.dcCipae 0)) ∧
      (textAt 0x1000 (0x1000 + 4 * BitVec.ofNat 64 k) [0xD50C7E00, 0xD50C7E00]).pc.toNat = 0x1000 + 4 * k := by
  decide

theorem test_meets_TurnsComeFromTheScheduleThenFree :
    (small [.pe] []).schedule = .pe :: [] ∧ (small [] []).schedule = [] := by decide

/-- Misaligned, above 2^64 - 8, past the text, and a word with L = 1. -/
theorem test_meets_RefusedFetches :
    (∀ s ∈ [textAt 0x1000 0x1002 [0xD50C7E00], textAt 0 0xFFFFFFFFFFFFFFFC [], textAt 0x1000 0x1004 [0xD50C7E00],
        textAt 0x1000 0x1000 [0xD52C7E00]],
      takeTurn s = (.pe, { s with schedule := [] }) ∧ s.fault = none) ∧
    (textAt 0x1000 0x1002 [0xD50C7E00]).pc.toNat % 4 ≠ 0 ∧
    ((textAt 0 0xFFFFFFFFFFFFFFFC []).pc.toNat % 4 = 0 ∧
      2 ^ 64 - 8 < (textAt 0 0xFFFFFFFFFFFFFFFC []).pc.toNat) ∧
    ((textAt 0x1000 0x1004 [0xD50C7E00]).pc.toNat % 4 = 0 ∧
      textBytes (textAt 0x1000 0x1004 [0xD50C7E00]).program (textAt 0x1000 0x1004 [0xD50C7E00]).pc.toNat = none) ∧
    (textBytes (textAt 0x1000 0x1000 [0xD52C7E00]).program (textAt 0x1000 0x1000 [0xD52C7E00]).pc.toNat =
        some (bytesOfWord 0xD52C7E00) ∧
      (0xD52C7E00 : Word32) &&& 0xFFFFFFE0 ≠ 0xD50C7E00) := by decide

theorem test_meets_StoppedPEHasNoStep :
    takeTurn (stopped .pe) = (.pe, { stopped .pe with schedule := [] }) ∧
    (stopped .pe).fault = some .undefined := by decide

theorem test_meets_FaultRecordIsNeverCleared :
    (stopped (.environment lineA .evict)).fault = some .undefined ∧
    (∃ u, step (stopped (.environment lineA .evict)) = .next u) ∧
    (takeTurn (stopped (.environment lineA .evict))).1 ≠ .pe :=
  ⟨by decide, ⟨_, rfl⟩, by decide⟩

/-! ## Witnesses: the maintenance agent -/

/-- A dirty line; a clean one meets the other clause. -/
theorem test_meets_PerformCleansAndInvalidates :
    (StateInv (small [.maintenance lineA] [lineA]) ∧
      takeTurn (small [.maintenance lineA] [lineA]) = (.maintenance lineA, small [] [lineA]) ∧
      lineA ∈ (small [.maintenance lineA] [lineA]).pendingDC ∧
      lineExists (small [.maintenance lineA] [lineA]).cfg lineA = true ∧
      cached (small [.maintenance lineA] [lineA]) lineA = some [1, 2, 3, 4] ∧
      dirty (small [.maintenance lineA] [lineA]) lineA = true) ∧
    dirty (cleanCopy (.maintenance lineA)) lineA = false :=
  ⟨⟨(small_inv _).2, by decide, by decide, by decide, by decide, by decide⟩, by decide⟩

theorem test_meets_PerformChangesOneLineOnly :
    takeTurn (small [.maintenance lineA] [lineA]) = (.maintenance lineA, small [] [lineA]) ∧
    ∃ u, step (small [.maintenance lineA] [lineA]) = .next u :=
  ⟨by decide, _, rfl⟩

theorem test_meets_PerformOutsideTheDomainIsTheIdentity :
    takeTurn (small [.maintenance lineOut] [lineOut]) = (.maintenance lineOut, small [] [lineOut]) ∧
    lineOut ∈ (small [.maintenance lineOut] [lineOut]).pendingDC ∧
    lineExists (small [.maintenance lineOut] [lineOut]).cfg lineOut = false := by decide

theorem test_meets_NothingIsPerformedBeforeItIsIssued :
    takeTurn (small [.maintenance lineA] [lineB]) = (.maintenance lineA, small [] [lineB]) ∧
    lineA ∉ (small [.maintenance lineA] [lineB]).pendingDC := by decide

theorem test_meets_PerformIsAForcedEvict :
    lineA ∈ (small [] [lineA]).pendingDC ∧
    ∃ u, step { small [] [lineA] with schedule := .environment lineA .evict :: [] } = .next u :=
  ⟨by decide, _, rfl⟩

theorem test_meets_MaintenanceOrderIsIrrelevant :
    StateInv (small [] [lineA]) ∧ [lineA, lineB].Perm [lineB, lineA] :=
  ⟨(small_inv _).2, by decide⟩

theorem test_meets_EveryRequestIsPerformedGivenItsTurn :
    [lineB, lineA].Perm (small [] [lineA, lineB]).pendingDC ∧
    lineExists (small [] [lineA, lineB]).cfg lineA = true := by decide

/-! ## Witnesses: the environment agent -/

theorem test_meets_FillCachesWhatMemoryHolds :
    takeTurn (small [.environment lineB .fill] []) = (.environment lineB .fill, small [] []) ∧
    lineExists (small [.environment lineB .fill] []).cfg lineB = true ∧
    cached (small [.environment lineB .fill] []) lineB = none := by decide

theorem test_meets_EvictWritesBackAndDrops :
    StateInv (small [.environment lineA .evict] []) ∧
    takeTurn (small [.environment lineA .evict] []) = (.environment lineA .evict, small [] []) ∧
    lineExists (small [.environment lineA .evict] []).cfg lineA = true ∧
    cached (small [.environment lineA .evict] []) lineA = some [1, 2, 3, 4] :=
  ⟨(small_inv _).1, by decide, by decide, by decide⟩

theorem test_meets_CleanBGWritesBackAndKeeps :
    StateInv (small [.environment lineA .cleanBG] []) ∧
    takeTurn (small [.environment lineA .cleanBG] []) = (.environment lineA .cleanBG, small [] []) ∧
    lineExists (small [.environment lineA .cleanBG] []).cfg lineA = true ∧
    cached (small [.environment lineA .cleanBG] []) lineA = some [1, 2, 3, 4] ∧
    dirty (small [.environment lineA .cleanBG] []) lineA = true :=
  ⟨(small_inv _).1, by decide, by decide, by decide, by decide⟩

theorem test_meets_WriteLeavesTheLineDirty :
    takeTurn (small [.environment lineA (.write [5, 6, 7, 8])] []) =
      (.environment lineA (.write [5, 6, 7, 8]), small [] []) ∧
    lineExists (small [.environment lineA (.write [5, 6, 7, 8])] []).cfg lineA = true ∧
    ([5, 6, 7, 8] : List Byte).length = (small [.environment lineA (.write [5, 6, 7, 8])] []).cfg.lineBytes := by
  decide

theorem test_meets_WriteThroughReachesMemory :
    StateInv (small [.environment lineB (.writeThrough [5, 6, 7, 8])] []) ∧
    takeTurn (small [.environment lineB (.writeThrough [5, 6, 7, 8])] []) =
      (.environment lineB (.writeThrough [5, 6, 7, 8]), small [] []) ∧
    lineExists (small [.environment lineB (.writeThrough [5, 6, 7, 8])] []).cfg lineB = true ∧
    ([5, 6, 7, 8] : List Byte).length =
      (small [.environment lineB (.writeThrough [5, 6, 7, 8])] []).cfg.lineBytes ∧
    cached (small [.environment lineB (.writeThrough [5, 6, 7, 8])] []) lineB = none :=
  ⟨(small_inv _).1, by decide, by decide, by decide, by decide⟩

theorem test_meets_EnvironmentChangesOneLineOnly :
    takeTurn (small [.environment lineA .evict] []) = (.environment lineA .evict, small [] []) ∧
    lineExists (small [.environment lineA .evict] []).cfg lineA = true ∧
    takeTurn (small [.environment lineOut .fill] []) = (.environment lineOut .fill, small [] []) ∧
    lineExists (small [.environment lineOut .fill] []).cfg lineOut = false := by decide

/-- The moves that are not enabled: line A is cached dirty, line B is not cached. -/
theorem test_meets_EnvironmentChangesOneLineOnly_disabled :
    ((takeTurn (small [.environment lineA .fill] [])).1 = .environment lineA .fill ∧
      cached (small [.environment lineA .fill] []) lineA ≠ none) ∧
    ((takeTurn (small [.environment lineB .evict] [])).1 = .environment lineB .evict ∧
      cached (small [.environment lineB .evict] []) lineB = none) ∧
    ((takeTurn (cleanCopy (.environment lineA .cleanBG))).1 = .environment lineA .cleanBG ∧
      dirty (cleanCopy (.environment lineA .cleanBG)) lineA = false) ∧
    ((takeTurn (small [.environment lineA (.writeThrough [5, 6, 7, 8])] [])).1 =
        .environment lineA (.writeThrough [5, 6, 7, 8]) ∧
      cached (small [.environment lineA (.writeThrough [5, 6, 7, 8])] []) lineA ≠ none) ∧
    ((takeTurn (small [.environment lineB (.write [5, 6, 7])] [])).1 = .environment lineB (.write [5, 6, 7]) ∧
      ([5, 6, 7] : List Byte).length ≠ (small [.environment lineB (.write [5, 6, 7])] []).cfg.lineBytes) := by
  decide

theorem test_meets_InvalidateIsNotDurable :
    lineA ∈ (small [] [lineA]).pendingDC ∧ lineExists (small [] [lineA]).cfg lineA = true := by decide

/-! ## Witnesses: the whole machine -/

theorem test_meets_RunsFromALaunchMeetTheInvariant :
    Launch (small [.pe] [lineB]) ∧ ∃ u, Host.Core.run core 1 (small [.pe] [lineB]) = .next u := by
  refine ⟨?_, _, rfl⟩
  constructor <;>
    first
    | decide
    | (intro p; cases p <;> decide)

theorem test_meets_StepKeepsTheInvariant :
    StateInv (small [.maintenance lineA] [lineA]) ∧
    ∃ u, step (small [.maintenance lineA] [lineA]) = .next u :=
  ⟨(small_inv _).2, _, rfl⟩

/-- A turn that fills a line, with another line cached clean. -/
theorem test_meets_StepKeepsCleanCopiesEqualToMemory :
    StateInv (cleanCopy (.environment lineB .fill)) ∧ CleanAgrees (cleanCopy (.environment lineB .fill)) ∧
    ∃ u, step (cleanCopy (.environment lineB .fill)) = .next u := by
  refine ⟨?_, ?_, _, rfl⟩
  · constructor <;>
      first
      | decide
      | (intro p; cases p <;> decide)
      | (intro _ h; cases h)
  · intro p
    cases p <;> decide

/-- A maintenance turn on a dirty line. -/
theorem test_meets_OnlyWritesChangeTheValueOfALine :
    StateInv (small [.maintenance lineA] [lineA]) ∧ CleanAgrees (small [.maintenance lineA] [lineA]) ∧
    (∃ u, step (small [.maintenance lineA] [lineA]) = .next u) ∧
    (takeTurn (small [.maintenance lineA] [lineA])).1 = .maintenance lineA :=
  ⟨(small_inv _).2, by intro p; cases p <;> decide, ⟨_, rfl⟩, by decide⟩

theorem test_meets_RunsNeverWriteRegistersStatusOrProgram :
    ∃ u, Host.Core.run core 2 (small [.pe, .maintenance lineA] []) = .next u := ⟨_, rfl⟩

theorem test_meets_UnprivilegedRunsIssueNothing :
    ∀ el ∈ [EL.el0, .el1], (level .new true el .realm).cfg.edition = .new ∧ (level .new true el .realm).el = el ∧
      ((level .new true el .realm).el = .el0 ∨ (level .new true el .realm).el = .el1) := by decide

theorem test_meets_UnprivilegedRunsIssueNothing_run :
    ∃ u, Host.Core.run core 1 (level .new true .el0 .realm) = .next u := ⟨_, rfl⟩

theorem test_meets_PendingRequestsBookkeeping :
    (∃ u, step (small [.pe] []) = .next u) ∧ (∃ u, step (small [.maintenance lineA] [lineA]) = .next u) ∧
    ∃ u, step (small [.environment lineA .evict] [lineA]) = .next u :=
  ⟨⟨_, rfl⟩, ⟨_, rfl⟩, ⟨_, rfl⟩⟩

/-- Past the text in the middle of the address space, and at its highest end. -/
theorem test_meets_FinalStates :
    (∀ s ∈ [textAt 0x1000 0x1004 [0xD50C7E00], textAt 0xFFFFFFFFFFFFFFF8 0xFFFFFFFFFFFFFFFC [0xD50C7E00]],
      s.program.wellFormed = true ∧ Final s ∧ takeTurn s = (.pe, { s with schedule := [] })) ∧
    (Final { textAt 0x1000 0x1004 [0xD50C7E00] with schedule := [.environment lineA .evict] } ∧
      (takeTurn { textAt 0x1000 0x1004 [0xD50C7E00] with schedule := [.environment lineA .evict] }).1 ≠ .pe) ∧
    (stopped .pe).fault = some .undefined := by decide

/-! ## Witnesses: runs without end -/

/-- The turns of a fair run: the PE, the perform, then moves of the environment that find nothing. -/
def fairTurns : Nat → Turn
  | 0 => .pe
  | 1 => .maintenance lineA
  | _ => .environment lineB .evict

/-- The states of that run: a request for line A issued, then performed, then nothing. -/
def fairStates : Nat → State
  | 0 => small [] []
  | 1 => { small [] [lineA] with pc := 0x1004 }
  | _ => { small [] [] with
      pc := 0x1004
      cache := State.reset.cache
      mem := { State.reset.mem with
        realm := [(0x80001040, 1), (0x80001041, 2), (0x80001042, 3), (0x80001043, 4)] } }

theorem fair_run : IsRun fairTurns fairStates
  | 0 => rfl
  | 1 => rfl
  | _ + 2 => rfl

/-- A weakly fair run that issues a request, performs it and is past the text with no fault. -/
theorem test_meets_WeaklyFairRunsPerformEveryRequest :
    IsRun fairTurns fairStates ∧ WeaklyFair fairTurns fairStates ∧ lineA ∈ (fairStates 1).pendingDC ∧
    lineExists (fairStates 1).cfg lineA = true ∧
    ((fairStates 2).pc.toNat = programEnd (fairStates 2).program ∧ (fairStates 2).fault = none) := by
  refine ⟨fair_run, fun k h => ?_, by decide, by decide, by decide⟩
  by_cases hk : k ≤ 1
  · exact ⟨1, lineA, hk, rfl, by decide⟩
  · exact absurd (show (fairStates (k + 2)).pendingDC = [] from rfl) (h (k + 2) (by omega))

/-- A run that starves a request: the environment alone moves. It is no weakly fair run. -/
theorem test_meets_WeaklyFairRunsPerformEveryRequest_starved :
    IsRun (fun _ => .environment lineB .evict) (fun _ => small [] [lineA]) ∧
    lineA ∈ (small [] [lineA]).pendingDC ∧
    (∀ j, ¬ Performs (fun _ => .environment lineB .evict) (fun _ => small [] [lineA]) j lineA) ∧
    ¬ WeaklyFair (fun _ => .environment lineB .evict) (fun _ => small [] [lineA]) := by
  refine ⟨fun _ => rfl, by decide, fun _ h => (by cases h.1), fun h => ?_⟩
  obtain ⟨_, _, _, h', _⟩ := h 0 fun _ _ hq => by cases hq
  cases h'

theorem test_meets_RunsAreStepsOnTheirSchedule :
    IsRun fairTurns fairStates ∧ ∃ u, step (small [.maintenance lineA] [lineA]) = .next u :=
  ⟨fair_run, _, rfl⟩

end Sys2Proof.Tests
end

/-! Proofs of the family of spec/10_state.md: the fields of the operand (R17) and the target space they select (R18). -/

namespace Sys2Proof.Machine

/-! ## A field in its place -/

/-- Masking the `n` bits from `lo` up leaves the field of those bits, in its place. -/
theorem and_mask_eq_extractLsb'_shiftLeft {w : Nat} (v : BitVec w) (lo n : Nat) :
    v &&& (BitVec.allOnes n).setWidth w <<< lo = (v.extractLsb' lo n).setWidth w <<< lo := by
  ext i hi
  rw [BitVec.getElem_and, BitVec.getElem_shiftLeft, BitVec.getElem_shiftLeft]
  by_cases hlo : i < lo
  · simp [hlo]
  · have hbit : lo + (i - lo) = i := by omega
    simp [hlo, hbit, hi, Bool.and_comm]

/-- The operand put together from the fields of a value is that value: the fields are adjacent and end at bit 63. -/
@[simp] theorem operandValue_operandOf (v : Word64) : operandValue (operandOf v) = v := by
  dsimp only [operandValue, operandOf]
  rw [BitVec.extractLsb'_append_extractLsb'_eq_extractLsb' (by rfl : 63 = 62 + 1),
    BitVec.extractLsb'_append_extractLsb'_eq_extractLsb' (by rfl : 62 = 52 + 10),
    BitVec.extractLsb'_append_extractLsb'_eq_extractLsb' (by rfl : 52 = 0 + 52)]
  exact BitVec.extractLsb'_eq_self

/-- Settles O5: each mask evaluates to a run of ones at the field's place, so masking leaves the field there (R17). -/
theorem operandFieldsTileTheValue : Obligations.OperandFieldsTileTheValue := by
  unfold Obligations.OperandFieldsTileTheValue
  intro v
  refine ⟨operandValue_operandOf v, ?_, ?_, ?_, ?_⟩
  · exact and_mask_eq_extractLsb'_shiftLeft v 63 1
  · exact and_mask_eq_extractLsb'_shiftLeft v 62 1
  · exact and_mask_eq_extractLsb'_shiftLeft v 52 10
  · simpa [operandOf] using and_mask_eq_extractLsb'_shiftLeft v 0 52

/-! ## The target space -/

/-- With NSE and NS set the operand names the Realm line that contains its PA (R18, R33). -/
theorem targetLine_of_realm {c : Config} {v : Word64}
    (h : (operandOf v).nse = 1 ∧ (operandOf v).ns = 1) :
    targetLine c v = some { space := .realm, idx := lineOf c (operandOf v).pa } := by
  simp [targetLine, targetPAS, h]

/-- At the three Reserved points the operand names no line (R18). -/
theorem targetLine_of_reserved {c : Config} {v : Word64}
    (h : ¬ ((operandOf v).nse = 1 ∧ (operandOf v).ns = 1)) : targetLine c v = none := by
  cases hl : targetLine c v with
  | none => rfl
  | some l => exact absurd (targetLine_space hl).2 h

/-- Settles O6: the four points by evaluation, then the operand's line at the Realm point and none elsewhere. -/
theorem targetSpaceIsRealmOnlyAtBothBits : Obligations.TargetSpaceIsRealmOnlyAtBothBits := by
  unfold Obligations.TargetSpaceIsRealmOnlyAtBothBits
  exact ⟨rfl, rfl, rfl, rfl, fun c v =>
    ⟨fun h => ⟨_, targetLine_of_realm h, rfl⟩, targetLine_of_reserved⟩⟩

end Sys2Proof.Machine

/-! Proofs of the family of spec/40_dc_cipae.md: the access check of either edition, row by row (R66, R67, R76). -/

namespace Sys2Proof.Machine

variable {s : State}

/-! ## The check as a whole -/

/-- FEAT_MEC is tested first: without it the check fails under either edition (R66). -/
theorem accessCheck_of_featMec_absent (hm : s.cfg.featMec = false) :
    accessCheck s = some .undefined := by
  simp [accessCheck, hm]

theorem accessCheck_eq_levelCheckNew (he : s.cfg.edition = .new) (hm : s.cfg.featMec = true) :
    accessCheck s = levelCheckNew s := by
  simp [accessCheck, he, hm]

theorem accessCheck_eq_levelCheckOld (he : s.cfg.edition = .old) (hm : s.cfg.featMec = true) :
    accessCheck s = levelCheckOld s := by
  simp [accessCheck, he, hm]

/-! ## The rows of the new edition (R67) -/

theorem levelCheckNew_el0 (hl : s.el = .el0) : levelCheckNew s = some .undefined := by
  simp [levelCheckNew, hl]

theorem levelCheckNew_el1 (hl : s.el = .el1) : levelCheckNew s = some .undefined := by
  simp [levelCheckNew, hl]

theorem levelCheckNew_el2_of_not_realm (hl : s.el = .el2) (hr : s.ss ≠ .realm) :
    levelCheckNew s = some .undefined := by
  simp [levelCheckNew, isCurrentSecurityStateRealm, hl, hr]

theorem levelCheckNew_el2_of_realm (hl : s.el = .el2) (hr : s.ss = .realm) :
    levelCheckNew s = none := by
  simp [levelCheckNew, isCurrentSecurityStateRealm, hl, hr]

theorem levelCheckNew_el3 (hl : s.el = .el3) : levelCheckNew s = none := by
  simp [levelCheckNew, hl]

/-! ## The rows of the old edition (R76) -/

/-- The trap condition of R76 as the two inputs it reads. -/
theorem nestedVirtTrap_iff : nestedVirtTrap s = true ↔ s.el2Enabled = true ∧ s.hcrEl2Nv = 1 := by
  simp [nestedVirtTrap]

theorem levelCheckOld_el0 (hl : s.el = .el0) : levelCheckOld s = some .undefined := by
  simp [levelCheckOld, hl]

theorem levelCheckOld_el1_of_trap (hl : s.el = .el1)
    (ht : s.el2Enabled = true ∧ s.hcrEl2Nv = 1) :
    levelCheckOld s = some (.trapToEL2 systemAccessEC) := by
  simp only [levelCheckOld, hl, nestedVirtTrap_iff.mpr ht, if_true]

theorem levelCheckOld_el1_of_no_trap (hl : s.el = .el1)
    (ht : ¬ (s.el2Enabled = true ∧ s.hcrEl2Nv = 1)) : levelCheckOld s = some .undefined := by
  simp only [levelCheckOld, hl, if_neg (mt nestedVirtTrap_iff.mp ht)]

theorem levelCheckOld_el2 (hl : s.el = .el2) : levelCheckOld s = none := by
  simp [levelCheckOld, hl]

theorem levelCheckOld_el3 (hl : s.el = .el3) : levelCheckOld s = none := by
  simp [levelCheckOld, hl]

/-! ## The two tables -/

/-- Settles O9: with FEAT_MEC the check is the new edition's level check, whose rows are R67's. -/
theorem accessTableOfTheNewEdition : Obligations.AccessTableOfTheNewEdition := by
  unfold Obligations.AccessTableOfTheNewEdition
  intro s he
  refine ⟨accessCheck_of_featMec_absent, fun hm => ?_⟩
  rw [accessCheck_eq_levelCheckNew he hm]
  exact ⟨levelCheckNew_el0, levelCheckNew_el1, levelCheckNew_el2_of_not_realm,
    levelCheckNew_el2_of_realm, levelCheckNew_el3⟩

/-- Settles O10: with FEAT_MEC the check is the old edition's level check, whose rows are R76's. -/
theorem accessTableOfTheOldEdition : Obligations.AccessTableOfTheOldEdition := by
  unfold Obligations.AccessTableOfTheOldEdition
  intro s he
  refine ⟨accessCheck_of_featMec_absent, fun hm => ?_⟩
  rw [accessCheck_eq_levelCheckOld he hm]
  exact ⟨levelCheckOld_el0, levelCheckOld_el1_of_trap, levelCheckOld_el1_of_no_trap,
    levelCheckOld_el2, levelCheckOld_el3⟩

end Sys2Proof.Machine

/-! Proofs of the family of spec/60_exceptions.md: which levels may execute DC CIPAE, which controls the check reads and
what no step writes (R94, R95). -/

namespace Sys2Proof.Machine

variable {s u v : State}

/-! ## The new edition's check as one test -/

/-- The rows of R67's table in one test: every row that does not execute ends in Undefined (R86). -/
theorem accessCheck_new (he : s.cfg.edition = .new) :
    accessCheck s =
      if s.cfg.featMec = true ∧ ((s.el = .el2 ∧ s.ss = .realm) ∨ s.el = .el3) then none
      else some .undefined := by
  obtain ⟨hAbsent, hRows⟩ := accessTableOfTheNewEdition s he
  cases hm : s.cfg.featMec with
  | false => simp [hAbsent hm]
  | true =>
    obtain ⟨h0, h1, h2, h2Realm, h3⟩ := hRows hm
    cases hl : s.el with
    | el0 => simp [h0 hl]
    | el1 => simp [h1 hl]
    | el2 =>
      by_cases hr : s.ss = .realm
      · simp [h2Realm hl hr, hr]
      · simp [h2 hl hr, hr]
    | el3 => simp [h3 hl]

theorem accessCheck_new_eq_none_iff (he : s.cfg.edition = .new) :
    accessCheck s = none ↔
      s.cfg.featMec = true ∧ ((s.el = .el2 ∧ s.ss = .realm) ∨ s.el = .el3) := by
  rw [accessCheck_new he]
  split
  · exact iff_of_true rfl ‹_›
  · exact iff_of_false (Option.some_ne_none _) ‹_›

/-- A check that fails under the new edition fails with Undefined: the edition has no trap (R94). -/
theorem accessCheck_new_eq_undefined {f : Fault} (he : s.cfg.edition = .new)
    (h : accessCheck s = some f) : f = .undefined := by
  rw [accessCheck_new he] at h
  split at h
  · cases h
  · exact (Option.some.inj h).symm

/-- At EL1 the new edition's check reads neither of the hypervisor's inputs (R94). -/
theorem accessCheck_new_el1 (he : s.cfg.edition = .new) (hl : s.el = .el1) :
    accessCheck s = some .undefined := by
  simp [accessCheck_new he, hl]

/-! ## What the check reads -/

/-- The check is determined by FEAT_MEC, the edition, the level, the Security state, EL2Enabled and NV (R94). -/
theorem accessCheck_congr (hm : u.cfg.featMec = s.cfg.featMec) (he : u.cfg.edition = s.cfg.edition)
    (hl : u.el = s.el) (hss : u.ss = s.ss) (h2 : u.el2Enabled = s.el2Enabled)
    (hnv : u.hcrEl2Nv = s.hcrEl2Nv) : accessCheck u = accessCheck s := by
  have hNew : levelCheckNew u = levelCheckNew s := by
    rw [levelCheckNew, isCurrentSecurityStateRealm, hl, hss]; rfl
  have hOld : levelCheckOld u = levelCheckOld s := by
    rw [levelCheckOld, nestedVirtTrap, hl, h2, hnv]; rfl
  rw [accessCheck, accessCheck, hm, he, hNew, hOld]

/-! ## What no step writes -/

/-- `u` is `s` but for the fields a step may write: the parameters, the text, the registers, the level, the Security state
and the hypervisor's inputs are those of `s` (R10, R13, R15, R16, R39). -/
def StatusKept (s u : State) : Prop :=
  u = { s with
    pc := u.pc, cache := u.cache, mem := u.mem, pendingDC := u.pendingDC, fault := u.fault,
    schedule := u.schedule, choices := u.choices }

theorem StatusKept.trans (h : StatusKept s u) (h' : StatusKept u v) : StatusKept s v := by
  rw [StatusKept, h', h]

theorem StatusKept.el (h : StatusKept s u) : u.el = s.el := by rw [h]

theorem OnlyLine.statusKept {l : LineId} (h : OnlyLine l s u) : StatusKept s u := by
  rw [StatusKept, h.fields]

theorem takeTurn_statusKept (s : State) : StatusKept s (takeTurn s).2 := by
  rw [StatusKept, takeTurn_fields]

theorem setPending_statusKept (s : State) (q : List LineId) : StatusKept s (s.setPending q) := rfl

theorem maintain_statusKept (l : LineId) (s : State) : StatusKept s (maintain l s) :=
  (setPending_statusKept s _).trans (maintain_onlyLine l s).statusKept

theorem requestTarget_statusKept (w : Word64) (s : State) : StatusKept s (requestTarget w s) := by
  rcases requestTarget_cases w s with ⟨-, h⟩ | ⟨l, -, ⟨-, h⟩ | ⟨-, h⟩⟩ <;> rw [h]
  · rfl
  · exact setPending_statusKept s _
  · exact (cleanInvalidate_onlyLine l s).statusKept

theorem exec_statusKept {i : Instr} (h : exec i s = .next u) : StatusKept s u := by
  obtain ⟨t, -, ⟨f, -, rfl⟩ | ⟨-, rfl⟩⟩ := exec_next_cases h
  · rfl
  · exact (requestTarget_statusKept _ s).trans rfl

/-- Whichever agent has the turn, a step keeps the fields that none of the three writes (R95). -/
theorem step_statusKept (h : step s = .next u) : StatusKept s u := by
  refine (takeTurn_statusKept s).trans ?_
  obtain ⟨-, -, i, -, hx⟩ | ⟨l, -, rfl⟩ | ⟨l, m, -, rfl⟩ := step_cases h
  · exact exec_statusKept hx
  · exact maintain_statusKept l _
  · exact (environment_onlyLine l m _).statusKept

/-! ## The two statements -/

/-- Settles O13: the new edition's check is one test on FEAT_MEC, level and Security state, and the level is among the fields
no step writes. -/
theorem levelsThatMayExecuteAndNeverChange : Obligations.LevelsThatMayExecuteAndNeverChange := by
  unfold Obligations.LevelsThatMayExecuteAndNeverChange
  exact ⟨fun _ he => accessCheck_new_eq_none_iff he, fun _ _ h => (step_statusKept h).el⟩

/-- Settles O12: under the new edition a check that fails ends in Undefined; under the old one EL1's trap row applies; either
check reads six inputs alone. -/
theorem noTrapToAHigherLevelInTheNewEdition : Obligations.NoTrapToAHigherLevelInTheNewEdition := by
  unfold Obligations.NoTrapToAHigherLevelInTheNewEdition
  refine ⟨fun s ec he h => ?_, fun s he hl e nv => accessCheck_new_el1 he hl,
    fun s he hm hl h2 hnv => ?_, fun s s' => accessCheck_congr⟩
  · cases accessCheck_new_eq_undefined he h
  · rw [accessCheck_eq_levelCheckOld he hm]
    exact levelCheckOld_el1_of_trap hl ⟨h2, hnv⟩

end Sys2Proof.Machine

/-! Proofs of the encoding statements: which words and bytes decode, and to what (R50 to R54, R59). -/

namespace Sys2Proof

/-! ## Words -/

/-- The fields of R52 cover the word with no gap and no overlap. -/
theorem sysWord_sysFields (w : Word32) : sysWord (sysFields w) = w := by
  dsimp only [sysWord, sysFields]
  rw [BitVec.extractLsb'_append_extractLsb'_eq_extractLsb' (by rfl : 22 = 21 + 1),
    BitVec.extractLsb'_append_extractLsb'_eq_extractLsb' (by rfl : 21 = 19 + 2),
    BitVec.extractLsb'_append_extractLsb'_eq_extractLsb' (by rfl : 19 = 16 + 3),
    BitVec.extractLsb'_append_extractLsb'_eq_extractLsb' (by rfl : 16 = 12 + 4),
    BitVec.extractLsb'_append_extractLsb'_eq_extractLsb' (by rfl : 12 = 8 + 4),
    BitVec.extractLsb'_append_extractLsb'_eq_extractLsb' (by rfl : 8 = 5 + 3),
    BitVec.extractLsb'_append_extractLsb'_eq_extractLsb' (by rfl : 5 = 0 + 5)]
  exact BitVec.extractLsb'_eq_self

/-- An instruction's word decodes to the instruction (R53). -/
@[simp] theorem decodeWord_encodeWord (i : Instr) : decodeWord (encodeWord i) = .ok i := by
  obtain ⟨t⟩ := i
  revert t
  decide

/-- A word either is an instruction's, which it decodes to, or it is no instruction's and not shown (R53, R59). -/
theorem decodeWord_cases (w : Word32) :
    (∃ i, w = encodeWord i ∧ decodeWord w = .ok i) ∨
    ((∀ i, w ≠ encodeWord i) ∧ decodeWord w = .error .notShown) := by
  by_cases h : sysFields w = dcCipaeFields (sysFields w).rt
  · have hw : w = encodeWord (.dcCipae (sysFields w).rt) := by
      rw [encodeWord, ← h, sysWord_sysFields]
    exact .inl ⟨_, hw, by rw [hw, decodeWord_encodeWord, ← hw]⟩
  · have hd : decodeWord w = .error .notShown := by simp [decodeWord, h]
    refine .inr ⟨fun i hi => ?_, hd⟩
    rw [hi, decodeWord_encodeWord] at hd
    cases hd

theorem decodeWord_eq_ok_iff {w : Word32} {i : Instr} : decodeWord w = .ok i ↔ w = encodeWord i := by
  refine ⟨fun h => ?_, fun h => by rw [h, decodeWord_encodeWord]⟩
  obtain ⟨j, hw, hd⟩ | ⟨-, hd⟩ := decodeWord_cases w <;> rw [hd] at h <;> cases h
  exact hw

/-! ## The mask of R53 -/

/-- The bits above Rt are the same in the 32 words. -/
theorem encodeWord_eq_append (t : RegNum) :
    encodeWord (.dcCipae t) = (0xD50C7E00 : Word32).extractLsb' 5 27 ++ t := by
  revert t
  decide

theorem rt_encodeWord (t : RegNum) : (encodeWord (.dcCipae t)).extractLsb' 0 5 = t := by
  rw [encodeWord_eq_append]
  exact BitVec.extractLsb'_append_eq_right

/-- A word matches under the mask exactly when it is DC CIPAE's with its own low five bits as the register number. -/
theorem masked_eq_iff (w : Word32) :
    w &&& 0xFFFFFFE0 = 0xD50C7E00 ↔ w = encodeWord (.dcCipae (w.extractLsb' 0 5)) := by
  have hw : w.extractLsb' 5 27 ++ w.extractLsb' 0 5 = w := by
    rw [BitVec.extractLsb'_append_extractLsb'_eq_extractLsb' (by rfl : 5 = 0 + 5)]
    exact BitVec.extractLsb'_eq_self
  constructor
  · intro h
    have hm : (0xFFFFFFE0 : Word32).extractLsb' 5 27 = BitVec.allOnes 27 := rfl
    have hi : w.extractLsb' 5 27 = (0xD50C7E00 : Word32).extractLsb' 5 27 := by
      rw [← h, BitVec.extractLsb'_and, hm, BitVec.and_allOnes]
    rw [encodeWord_eq_append, ← hi, hw]
  · intro h
    rw [h]
    generalize w.extractLsb' 0 5 = t
    revert t
    decide

/-! ## Bytes -/

@[simp] theorem wordOfBytes_bytesOfWord (w : Word32) :
    wordOfBytes (w.extractLsb' 0 8) (w.extractLsb' 8 8) (w.extractLsb' 16 8) (w.extractLsb' 24 8) = w := by
  dsimp only [wordOfBytes]
  rw [BitVec.extractLsb'_append_extractLsb'_eq_extractLsb' (by rfl : 24 = 16 + 8),
    BitVec.extractLsb'_append_extractLsb'_eq_extractLsb' (by rfl : 16 = 8 + 8),
    BitVec.extractLsb'_append_extractLsb'_eq_extractLsb' (by rfl : 8 = 0 + 8)]
  exact BitVec.extractLsb'_eq_self

@[simp] theorem bytesOfWord_wordOfBytes (b0 b1 b2 b3 : Byte) :
    bytesOfWord (wordOfBytes b0 b1 b2 b3) = [b0, b1, b2, b3] := by
  have h0 : (wordOfBytes b0 b1 b2 b3).extractLsb' 0 8 = b0 := BitVec.extractLsb'_append_eq_right
  have h1 : (wordOfBytes b0 b1 b2 b3).extractLsb' 8 8 = b1 :=
    (BitVec.extractLsb'_append_eq_of_le (by decide)).trans BitVec.extractLsb'_append_eq_right
  have h2 : (wordOfBytes b0 b1 b2 b3).extractLsb' 16 8 = b2 :=
    (BitVec.extractLsb'_append_eq_of_le (by decide)).trans
      ((BitVec.extractLsb'_append_eq_of_le (by decide)).trans BitVec.extractLsb'_append_eq_right)
  have h3 : (wordOfBytes b0 b1 b2 b3).extractLsb' 24 8 = b3 :=
    (BitVec.extractLsb'_append_eq_of_le (by decide)).trans
      ((BitVec.extractLsb'_append_eq_of_le (by decide)).trans BitVec.extractLsb'_append_eq_left)
  rw [bytesOfWord, h0, h1, h2, h3]

/-- Bytes that begin with a word's decode to what the word decodes to, with the rest left over (R50). -/
theorem decode_bytesOfWord_append (w : Word32) (rest : List Byte) :
    decode (bytesOfWord w ++ rest) = (decodeWord w).map fun i => (i, rest) := by
  simp only [bytesOfWord, List.cons_append, List.nil_append, decode, wordOfBytes_bytesOfWord]
  cases decodeWord w <;> rfl

/-- Some bytes begin with a word's, or they are too few (R50). -/
theorem decode_cases (bs : List Byte) :
    (∃ w rest, bs = bytesOfWord w ++ rest) ∨ decode bs = .error .truncated := by
  match bs with
  | b0 :: b1 :: b2 :: b3 :: rest =>
    exact .inl ⟨wordOfBytes b0 b1 b2 b3, rest, by rw [bytesOfWord_wordOfBytes]; rfl⟩
  | [] | [_] | [_, _] | [_, _, _] => exact .inr rfl

/-- Decoding is the inverse of encoding: an instruction comes from its own bytes alone (R50, R53, R59). -/
theorem decode_eq_ok_iff {bs rest : List Byte} {i : Instr} :
    decode bs = .ok (i, rest) ↔ bs = encode i ++ rest := by
  constructor
  · intro h
    obtain ⟨w, rest', rfl⟩ | ht := decode_cases bs
    · rw [decode_bytesOfWord_append] at h
      obtain ⟨j, rfl, hj⟩ | ⟨-, hd⟩ := decodeWord_cases w
      · rw [hj] at h
        cases h
        rfl
      · rw [hd] at h
        cases h
    · rw [ht] at h
      cases h
  · rintro rfl
    rw [encode, decode_bytesOfWord_append, decodeWord_encodeWord]
    rfl

/-- A word that does not match under the mask is not shown (R59). -/
theorem decodeWord_of_not_masked {w : Word32} (h : w &&& 0xFFFFFFE0 ≠ 0xD50C7E00) :
    decodeWord w = .error .notShown := by
  obtain ⟨⟨t⟩, rfl, -⟩ | ⟨-, hd⟩ := decodeWord_cases w
  · exact absurd ((masked_eq_iff _).mpr (by rw [rt_encodeWord])) h
  · exact hd

/-- Nor do its bytes decode. -/
theorem decode_bytesOfWord_of_not_masked {w : Word32} (h : w &&& 0xFFFFFFE0 ≠ 0xD50C7E00) :
    decode (bytesOfWord w) = .error .notShown := by
  rw [← List.append_nil (bytesOfWord w), decode_bytesOfWord_append, decodeWord_of_not_masked h]
  rfl

/-! ## The statements -/

/-- Settles O1: four bytes are those of one word, and a word decodes exactly when it is an instruction's. -/
theorem decodeInvertsEncodeExactly : Obligations.DecodeInvertsEncodeExactly := by
  unfold Obligations.DecodeInvertsEncodeExactly
  intro bs i rest
  have hwf : i.wellFormed = true := by cases i; rfl
  simp [hwf, decode_eq_ok_iff]

/-- Settles O2: the mask fixes every bit but Rt's, and the words it admits are the 32 that decode. -/
theorem wordIsDcCipaeExactlyUnderMask : Obligations.WordIsDcCipaeExactlyUnderMask := by
  unfold Obligations.WordIsDcCipaeExactlyUnderMask
  exact fun w => ⟨fun h => decodeWord_eq_ok_iff.mpr ((masked_eq_iff w).mp h),
    fun h => decodeWord_of_not_masked h⟩

/-- The word is the row's with the register number added: Rt stands in the low bits, where the row has zeros (R53). -/
theorem encodeWord_eq_add (t : RegNum) : encodeWord (.dcCipae t) = 0xD50C7E00 + t.setWidth 32 := by
  revert t
  decide

/-- Settles O3: the register number fits in the lowest byte, and the three others are constant, for all 32 numbers. -/
theorem encodedWordsAreConsecutiveAndLittleEndian :
    Obligations.EncodedWordsAreConsecutiveAndLittleEndian := by
  unfold Obligations.EncodedWordsAreConsecutiveAndLittleEndian
  refine fun t => ⟨encodeWord_eq_add t, ?_⟩
  revert t
  decide

/-- Settles O4: each of the twelve words evaluates to what the table says. -/
theorem specWordsDecodeAndNeighboursDoNot : Obligations.SpecWordsDecodeAndNeighboursDoNot := by
  unfold Obligations.SpecWordsDecodeAndNeighboursDoNot
  decide

end Sys2Proof

/-! Proofs about DC CIPAE: its meaning case by case, what it changes and what it leaves unchanged (R65 to R80). -/

namespace Sys2Proof.Machine

variable {s u : State} {t : RegNum} {v : Word64} {l : LineId}

/-! ## The operand -/

/-- Settles O7: LINE_BYTES is a power of two, and quotient and line are those of `in_line_iff`. -/
theorem lineOfIsTheLineContainingThePA : Obligations.LineOfIsTheLineContainingThePA := by
  unfold Obligations.LineOfIsTheLineContainingThePA
  intro c pa
  refine ⟨(Nat.shiftRight_eq_div_pow _ _).symm, fun idx => ?_⟩
  rw [Nat.succ_mul]
  exact (in_line_iff c { space := .realm, idx := idx } pa.toNat).trans eq_comm

/-- Register number 31 reads as 0 (R11). -/
@[simp] theorem readX_xzr (s : State) : readX 31 s = 0 := rfl

theorem readX_ofNat (s : State) {n : Nat} (h : n < 31) : readX (BitVec.ofNat 5 n) s = s.regs[n] := by
  have hn : (BitVec.ofNat 5 n).toNat = n := Nat.mod_eq_of_lt (by omega)
  simp only [readX, hn, dif_pos h]

/-- Settles O20: a number below 31 fits in five bits, so the register read is the one named. -/
theorem operandIsTheNamedRegister : Obligations.OperandIsTheNamedRegister := by
  unfold Obligations.OperandIsTheNamedRegister
  exact fun s _ h => readX_ofNat s h

/-! ## The meaning, case by case -/

section
variable (hook : DCFault)

/-- R66: the check comes first. -/
theorem dcCipaeWith_of_check_failed {f : Fault} (ha : accessCheck s = some f) :
    dcCipaeWith hook t s = .next (raise f s) := by
  simp [dcCipaeWith, ha]

/-- R19: under RES0_STRICT the RES0 bits are looked at next. -/
theorem dcCipaeWith_of_res0 (ha : accessCheck s = none) (hs : s.cfg.res0Strict = true)
    (hr : (operandOf (readX t s)).res0 ≠ 0) : dcCipaeWith hook t s = .refused .res0Operand := by
  rw [dcCipaeWith, ha]
  exact if_pos ⟨hs, hr⟩

variable (ha : accessCheck s = none) (hr : s.cfg.res0Strict = true → (operandOf (readX t s)).res0 = 0)
include ha hr

/-- R88: the hook's answer is recorded. -/
theorem dcCipaeWith_of_hook {f : Fault} (hf : hook (readX t s) s = some f) :
    dcCipaeWith hook t s = .next (raise f s) := by
  rw [dcCipaeWith, ha]
  dsimp only
  rw [if_neg (not_and_not_right.mpr hr), hf]

/-- R69, R70, R72: the request is made and `pc` moves on. -/
theorem dcCipaeWith_of_completes (hf : hook (readX t s) s = none) :
    dcCipaeWith hook t s = .next (advancePC (requestTarget (readX t s) s)) := by
  rw [dcCipaeWith, ha]
  dsimp only
  rw [if_neg (not_and_not_right.mpr hr), hf]

end

theorem exec_of_check_failed {f : Fault} (ha : accessCheck s = some f) :
    exec (.dcCipae t) s = .next (raise f s) :=
  dcCipaeWith_of_check_failed noDCFault ha

theorem exec_of_res0 (ha : accessCheck s = none) (hs : s.cfg.res0Strict = true)
    (hr : (operandOf (readX t s)).res0 ≠ 0) : exec (.dcCipae t) s = .refused .res0Operand :=
  dcCipaeWith_of_res0 noDCFault ha hs hr

theorem exec_of_completes (ha : accessCheck s = none)
    (hr : s.cfg.res0Strict = true → (operandOf (readX t s)).res0 = 0) :
    exec (.dcCipae t) s = .next (advancePC (requestTarget (readX t s) s)) :=
  dcCipaeWith_of_completes noDCFault ha hr rfl

/-- Settles O14: the first case of the meaning. -/
theorem failedCheckRecordsTheFaultAndNothingElse :
    Obligations.FailedCheckRecordsTheFaultAndNothingElse := by
  unfold Obligations.FailedCheckRecordsTheFaultAndNothingElse
  exact fun _ _ _ => exec_of_check_failed

/-- Settles O11: the word is the encoder's, and without FEAT_MEC the check fails. -/
theorem absentFeatureDecodesAndIsUndefined : Obligations.AbsentFeatureDecodesAndIsUndefined := by
  unfold Obligations.AbsentFeatureDecodesAndIsUndefined
  refine fun t s hm => ⟨?_, exec_of_check_failed (accessCheck_of_featMec_absent hm)⟩
  rw [← encodeWord_eq_add, decodeWord_encodeWord]

/-- Settles O16: without FEAT_MEC the check fails before the level is looked at; with it EL1's trap row applies. -/
theorem oldEditionTrapIsRecorded : Obligations.OldEditionTrapIsRecorded := by
  unfold Obligations.OldEditionTrapIsRecorded
  intro t s he hl h2 hnv
  cases hm : s.cfg.featMec with
  | false => exact exec_of_check_failed (accessCheck_of_featMec_absent hm)
  | true =>
    refine exec_of_check_failed ?_
    rw [accessCheck_eq_levelCheckOld he hm]
    exact levelCheckOld_el1_of_trap hl ⟨h2, hnv⟩

/-- Settles O21: the second case of the meaning is the only refusal, and it needs the switch. -/
theorem res0OperandsAreRefusedOnlyUnderTheSwitch :
    Obligations.Res0OperandsAreRefusedOnlyUnderTheSwitch := by
  unfold Obligations.Res0OperandsAreRefusedOnlyUnderTheSwitch
  refine ⟨fun _ _ hs ha hr => exec_of_res0 ha hs hr, fun t s hs => ?_⟩
  obtain ⟨f, -, hx⟩ | ⟨-, hs', -⟩ | ⟨-, -, hx⟩ := execDcCipae_cases t s
  · exact ⟨_, hx⟩
  · rw [hs] at hs'
    cases hs'
  · exact ⟨_, hx⟩

/-- Where the hook answers nothing, the meaning is that of the constant none. -/
theorem dcCipaeWith_of_hook_none {hook : DCFault} (h : hook (readX t s) s = none) :
    dcCipaeWith hook t s = exec (.dcCipae t) s := by
  obtain ⟨f, ha, hx⟩ | ⟨ha, hs, hr, hx⟩ | ⟨ha, hr, hx⟩ := execDcCipae_cases t s <;> rw [hx]
  · exact dcCipaeWith_of_check_failed hook ha
  · exact dcCipaeWith_of_res0 hook ha hs hr
  · exact dcCipaeWith_of_completes hook ha hr h

/-- Settles O22: the four cases of the meaning, in the order of R65. -/
theorem dcFaultHookIsConsultedAfterTheChecks : Obligations.DcFaultHookIsConsultedAfterTheChecks := by
  unfold Obligations.DcFaultHookIsConsultedAfterTheChecks
  exact fun hook t s => ⟨fun _ => dcCipaeWith_of_check_failed hook, dcCipaeWith_of_res0 hook,
    fun _ ha hr => dcCipaeWith_of_hook hook ha hr, dcCipaeWith_of_hook_none⟩

/-! ## The request part -/

theorem requestTarget_of_reserved (h : targetLine s.cfg v = none) : requestTarget v s = s := by
  simp [requestTarget, h]

theorem requestTarget_of_line (h : targetLine s.cfg v = some l) : requestTarget v s = issueDC l s := by
  simp [requestTarget, h]

theorem issueDC_of_not_atomic (h : s.cfg.dcAtomic = false) :
    issueDC l s = s.setPending (pendingInsert l s.pendingDC) := by
  simp [issueDC, h]

theorem issueDC_of_atomic (h : s.cfg.dcAtomic = true) : issueDC l s = cleanInvalidate l s := by
  simp [issueDC, h, performDC]

/-- The request part changes the stores and the pending requests alone. -/
theorem requestTarget_fields (v : Word64) (s : State) :
    requestTarget v s = { s with
      cache := (requestTarget v s).cache, mem := (requestTarget v s).mem,
      pendingDC := (requestTarget v s).pendingDC } := by
  obtain ⟨-, h⟩ | ⟨l, -, ⟨-, h⟩ | ⟨-, h⟩⟩ := requestTarget_cases v s <;> rw [h]
  · rfl
  · conv_lhs => rw [(cleanInvalidate_onlyLine l s).fields]
    rw [(cleanInvalidate_onlyLine l s).pendingDC]

@[simp] theorem requestTarget_pc (v : Word64) (s : State) : (requestTarget v s).pc = s.pc := by
  rw [requestTarget_fields]

@[simp] theorem requestTarget_fault (v : Word64) (s : State) :
    (requestTarget v s).fault = s.fault := by
  rw [requestTarget_fields]

/-- Where no line is performed at once, the stores stay (R38, R75). -/
theorem requestTarget_keeps_stores (h : s.cfg.dcAtomic = false ∨ targetLine s.cfg v = none) :
    (requestTarget v s).cache = s.cache ∧ (requestTarget v s).mem = s.mem := by
  obtain ⟨-, hx⟩ | ⟨l, hl, ⟨-, hx⟩ | ⟨hd, -⟩⟩ := requestTarget_cases v s
  · simp [hx]
  · simp [hx]
  · simp [hd, hl] at h

/-- Of the stores, the request part changes the operand's line alone. -/
theorem requestTarget_onlyLine (h : targetLine s.cfg v = some l) :
    OnlyLine l (s.setPending (requestTarget v s).pendingDC) (requestTarget v s) := by
  obtain ⟨hn, -⟩ | ⟨l', hl, hx⟩ := requestTarget_cases v s
  · rw [h] at hn
    cases hn
  · obtain rfl : l = l' := Option.some.inj (h.symm.trans hl)
    obtain ⟨-, hx⟩ | ⟨-, hx⟩ := hx <;> rw [hx]
    · exact OnlyLine.refl l _
    · have hc := cleanInvalidate_onlyLine l s
      rw [hc.pendingDC]
      exact hc

/-! ## Completion -/

/-- With FEAT_MEC, DC CIPAE executes at EL3, and at EL2 in Realm or under the old edition (R106). -/
theorem accessCheck_eq_none_of_level (hm : s.cfg.featMec = true)
    (hl : s.el = .el3 ∨ (s.el = .el2 ∧ (s.ss = .realm ∨ s.cfg.edition = .old))) :
    accessCheck s = none := by
  cases he : s.cfg.edition with
  | new =>
    rw [accessCheck_new_eq_none_iff he]
    simp only [he, reduceCtorEq, or_false] at hl
    exact ⟨hm, hl.symm⟩
  | old =>
    rw [accessCheck_eq_levelCheckOld he hm]
    obtain hl | ⟨hl, -⟩ := hl
    · exact levelCheckOld_el3 hl
    · exact levelCheckOld_el2 hl

section
variable (ha : accessCheck s = none) (hr : s.cfg.res0Strict = true → (operandOf (readX t s)).res0 = 0)
include ha hr

theorem exec_of_line_not_atomic (hl : targetLine s.cfg (readX t s) = some l)
    (hd : s.cfg.dcAtomic = false) :
    exec (.dcCipae t) s = .next (advancePC (s.setPending (pendingInsert l s.pendingDC))) := by
  rw [exec_of_completes ha hr, requestTarget_of_line hl, issueDC_of_not_atomic hd]

theorem exec_of_line_atomic (hl : targetLine s.cfg (readX t s) = some l)
    (hd : s.cfg.dcAtomic = true) :
    exec (.dcCipae t) s = .next (advancePC (cleanInvalidate l s)) := by
  rw [exec_of_completes ha hr, requestTarget_of_line hl, issueDC_of_atomic hd]

theorem exec_of_reserved (hn : targetLine s.cfg (readX t s) = none) :
    exec (.dcCipae t) s = .next (advancePC s) := by
  rw [exec_of_completes ha hr, requestTarget_of_reserved hn]

end

/-- Settles O17: completion where the operand's line gets a request. -/
theorem dcCipaeIssuesARequestForTheRealmLine :
    Obligations.DcCipaeIssuesARequestForTheRealmLine := by
  unfold Obligations.DcCipaeIssuesARequestForTheRealmLine
  rintro t s o hm hl hd rfl hr hnse hns
  exact exec_of_line_not_atomic (accessCheck_eq_none_of_level hm hl) hr
    (targetLine_of_realm ⟨hnse, hns⟩) hd

/-- Settles O18: completion where the operand names no line. -/
theorem dcCipaeWithAReservedTargetOnlyAdvances :
    Obligations.DcCipaeWithAReservedTargetOnlyAdvances := by
  unfold Obligations.DcCipaeWithAReservedTargetOnlyAdvances
  rintro t s o ha rfl hr hn
  exact exec_of_reserved ha hr (targetLine_of_reserved hn)

/-- Settles O19: operand 0 has no RES0 bit set and a Reserved target. -/
theorem dcCipaeXzrOnlyAdvances : Obligations.DcCipaeXzrOnlyAdvances := by
  unfold Obligations.DcCipaeXzrOnlyAdvances
  refine fun s ha => exec_of_reserved ha (fun _ => ?_) (targetLine_of_reserved ?_) <;>
    rw [readX_xzr] <;> decide

/-- Settles O26: the two ways to a next state, the second by what the request part does. -/
theorem dcCipaeIsPrecise : Obligations.DcCipaeIsPrecise := by
  unfold Obligations.DcCipaeIsPrecise
  intro t s u h
  obtain ⟨_, ht, ⟨f, hf, rfl⟩ | ⟨ha, rfl⟩⟩ := exec_next_cases h <;> cases ht
  · exact .inl ⟨f, hf, rfl⟩
  · refine .inr ⟨ha, ?_⟩
    rw [advancePC, requestTarget_pc]
    cases hl : targetLine s.cfg (readX t s) with
    | none => rw [requestTarget_of_reserved hl]; rfl
    | some l =>
      rw [requestTarget_of_line hl]
      cases hd : s.cfg.dcAtomic with
      | false => rw [issueDC_of_not_atomic hd]; rfl
      | true => rw [issueDC_of_atomic hd]; rfl

/-! ## The fault record -/

/-- A failed check's exception is recorded; otherwise the record stays. -/
theorem exec_fault {i : Instr} (h : exec i s = .next u) : u.fault = (accessCheck s).or s.fault := by
  obtain ⟨t, -, ⟨f, hf, rfl⟩ | ⟨ha, rfl⟩⟩ := exec_next_cases h
  · rw [hf]; rfl
  · rw [ha, advancePC, State.setPC_fault, requestTarget_fault, Option.none_or]

/-- Under the new edition the check ends in Undefined for R86's four causes and passes otherwise. -/
theorem accessCheck_new_eq_undefined_iff (he : s.cfg.edition = .new) :
    accessCheck s = some .undefined ↔
      s.cfg.featMec = false ∨ s.el = .el0 ∨ s.el = .el1 ∨ (s.el = .el2 ∧ s.ss ≠ .realm) := by
  rw [accessCheck_new he]
  cases s.cfg.featMec with
  | false => simp
  | true => cases s.el <;> simp

/-- Settles O15: with no fault before, the record is what the check ended in. -/
theorem undefinedExactlyForItsCauses : Obligations.UndefinedExactlyForItsCauses := by
  unfold Obligations.UndefinedExactlyForItsCauses
  intro t s u he hf h
  rw [exec_fault h, hf, Option.or_none]
  refine ⟨accessCheck_new_eq_undefined_iff he, ?_⟩
  cases ha : accessCheck s with
  | none => exact .inl rfl
  | some f => exact .inr (congrArg some (accessCheck_new_eq_undefined he ha))

/-! ## The frame -/

/-- DC CIPAE writes `pc`, the stores, the pending requests and the fault record alone. -/
theorem exec_fields {i : Instr} (h : exec i s = .next u) :
    u = { s with
      pc := u.pc, cache := u.cache, mem := u.mem, pendingDC := u.pendingDC, fault := u.fault } := by
  obtain ⟨t, -, ⟨f, -, rfl⟩ | ⟨-, rfl⟩⟩ := exec_next_cases h
  · rfl
  · rw [requestTarget_fields]
    rfl

theorem memByte_congr (hm : u.mem = s.mem) (hc : u.cfg = s.cfg) (p : PASpace) (a : Nat) :
    memByte u p a = memByte s p a := by
  rw [memByte, memByte, hm, hc]

theorem exec_keeps_stores (h : exec (.dcCipae t) s = .next u)
    (hn : s.cfg.dcAtomic = false ∨ targetLine s.cfg (readX t s) = none) :
    u.cache = s.cache ∧ u.mem = s.mem := by
  obtain ⟨_, ht, ⟨f, -, rfl⟩ | ⟨-, rfl⟩⟩ := exec_next_cases h <;> cases ht
  · exact ⟨rfl, rfl⟩
  · exact requestTarget_keeps_stores hn

/-- Of the stores, DC CIPAE changes the operand's line alone. -/
theorem exec_onlyLine (h : exec (.dcCipae t) s = .next u)
    (hl : targetLine s.cfg (readX t s) = some l) :
    OnlyLine l { s with pc := u.pc, pendingDC := u.pendingDC, fault := u.fault } u := by
  have hu := exec_fields h
  obtain ⟨_, ht, ⟨f, -, rfl⟩ | ⟨-, rfl⟩⟩ := exec_next_cases h <;> cases ht
  · exact OnlyLine.refl l _
  · have hr := requestTarget_onlyLine hl
    exact ⟨hu, hr.entries, hr.bytes⟩

/-- Settles O25: the fields written, and of the stores the operand's line. -/
theorem dcCipaeFrame : Obligations.DcCipaeFrame := by
  unfold Obligations.DcCipaeFrame
  intro t s u h
  have hu := exec_fields h
  refine ⟨by rw [hu], by rw [hu], by rw [hu], by rw [hu], by rw [hu], by rw [hu], by rw [hu],
    by rw [hu], by rw [hu], fun hn => ?_, fun l hl => ?_⟩
  · obtain ⟨hc, hm⟩ := exec_keeps_stores h hn
    exact ⟨hc, memByte_congr hm (by rw [hu])⟩
  · have ho := exec_onlyLine h hl
    exact ⟨fun l' hne => ⟨ho.cached hne, ho.dirty hne⟩, ho.memByte⟩

/-! ## What DC CIPAE does not look at -/

/-- The request part looks at the operand through the line it names alone (R19). -/
theorem requestTarget_congr {v' : Word64} (h : targetLine s.cfg v = targetLine s.cfg v') :
    requestTarget v s = requestTarget v' s := by
  rw [requestTarget, h]
  rfl

/-- Given the operand, the request part does not look at the registers. -/
theorem requestTarget_setRegs (v : Word64) (s : State) (r : Vector Word64 31) :
    requestTarget v { s with regs := r } = { requestTarget v s with regs := r } := by
  cases hl : targetLine s.cfg v with
  | none => rw [requestTarget_of_reserved hl, requestTarget_of_reserved (s := { s with regs := r }) hl]
  | some l =>
    rw [requestTarget_of_line hl, requestTarget_of_line (s := { s with regs := r }) hl]
    cases hd : s.cfg.dcAtomic with
    | false => rw [issueDC_of_not_atomic hd, issueDC_of_not_atomic (s := { s with regs := r }) hd]; rfl
    | true =>
      rw [issueDC_of_atomic hd, issueDC_of_atomic (s := { s with regs := r }) hd,
        cleanInvalidate_congr l s { s with regs := r } rfl rfl rfl rfl]
      conv_rhs => rw [(cleanInvalidate_onlyLine l s).fields]

/-- Operands with the same NSE and NS whose PAs lie in one line name the same line, or none both. -/
theorem targetLine_congr {c : Config} {v v' : Word64}
    (hns : (operandOf v).ns = (operandOf v').ns) (hnse : (operandOf v).nse = (operandOf v').nse)
    (hpa : lineOf c (operandOf v).pa = lineOf c (operandOf v').pa) :
    targetLine c v = targetLine c v' := by
  simp only [targetLine, hns, hnse, hpa]

/-- Settles O8: the check does not look at the registers, and the request part looks at the line alone. -/
theorem operandsNamingOneLineActAlike : Obligations.OperandsNamingOneLineActAlike := by
  unfold Obligations.OperandsNamingOneLineActAlike
  rintro s r r' t t' _ _ hs rfl rfl hns hnse hpa
  cases ha : accessCheck s with
  | some f =>
    exact ⟨raise f s, exec_of_check_failed (s := { s with regs := r }) ha,
      exec_of_check_failed (s := { s with regs := r' }) ha⟩
  | none =>
    have hr : ∀ w, s.cfg.res0Strict = true → (operandOf w).res0 = 0 := by simp [hs]
    refine ⟨advancePC (requestTarget (readX t { s with regs := r }) s), ?_, ?_⟩
    · rw [exec_of_completes (s := { s with regs := r }) ha (hr _), requestTarget_setRegs]
      rfl
    · rw [exec_of_completes (s := { s with regs := r' }) ha (hr _), requestTarget_setRegs,
        requestTarget_congr (targetLine_congr hns hnse hpa)]
      rfl

/-- With DC_ATOMIC off the request part does not look at the stores. -/
theorem requestTarget_setStores (hd : s.cfg.dcAtomic = false) (c : Banked CacheBank) (m : Banked Memory) :
    requestTarget v { s with cache := c, mem := m } = { requestTarget v s with cache := c, mem := m } := by
  cases hl : targetLine s.cfg v with
  | none =>
    rw [requestTarget_of_reserved hl, requestTarget_of_reserved (s := { s with cache := c, mem := m }) hl]
  | some l =>
    rw [requestTarget_of_line hl, requestTarget_of_line (s := { s with cache := c, mem := m }) hl,
      issueDC_of_not_atomic hd, issueDC_of_not_atomic (s := { s with cache := c, mem := m }) hd]
    rfl

/-- Settles O27: neither the check nor the operand nor the request part looks at the stores. -/
theorem dcCipaeSeesNoCacheOrMemory : Obligations.DcCipaeSeesNoCacheOrMemory := by
  unfold Obligations.DcCipaeSeesNoCacheOrMemory
  intro t s c m hd
  obtain ⟨f, ha, hx⟩ | ⟨ha, hs, hr, hx⟩ | ⟨ha, hr, hx⟩ := execDcCipae_cases t s <;> rw [hx] <;>
    refine ⟨fun u h => ?_, fun r h => ?_⟩ <;> cases h
  · exact exec_of_check_failed (s := { s with cache := c, mem := m }) ha
  · exact exec_of_res0 (s := { s with cache := c, mem := m }) ha hs hr
  · rw [exec_of_completes (s := { s with cache := c, mem := m }) ha hr, requestTarget_setStores hd]
    rfl

end Sys2Proof.Machine

/-! Proofs about the maintenance and the environment agent: what a turn of each does to its line and leaves
unchanged (R24, R40, R71, R77). -/

namespace Sys2Proof.Machine

variable {s s' u : State} {l : LineId} {d : List Byte}

/-! ## Clean and invalidate, as the caches' observers see it -/

theorem uncached_of_no_entry (h : cacheEntry s l = none) : cached s l = none ∧ dirty s l = false :=
  ⟨cached_none_iff.mpr h, dirty_of_none h⟩

/-- The promise of R44: an existing line is uncached and not dirty. -/
theorem uncached_cleanInvalidate (hx : lineExists s.cfg l = true) :
    cached (cleanInvalidate l s) l = none ∧ dirty (cleanInvalidate l s) l = false :=
  uncached_of_no_entry (cacheEntry_cleanInvalidate hx)

/-- A dirty value reaches memory. -/
theorem memLine_cleanInvalidate_of_dirty (hs : Stored s) (hc : cached s l = some d)
    (hd : dirty s l = true) : memLine (cleanInvalidate l s) l = d := by
  obtain ⟨e, he, rfl⟩ := cached_some_iff.mp hc
  rw [hs.memLine_cleanInvalidate he, if_pos (by rw [← dirty_of_entry he, hd])]

/-- Where nothing is dirty, memory stays. -/
theorem memLine_cleanInvalidate_of_clean (hs : Stored s) (hd : dirty s l = false) :
    memLine (cleanInvalidate l s) l = memLine s l := by
  cases he : cacheEntry s l with
  | none => rw [cleanInvalidate_of_none he]
  | some e =>
    rw [dirty_of_entry he] at hd
    rw [hs.memLine_cleanInvalidate he, hd]
    rfl

theorem cleanInvalidate_idem (l : LineId) (s : State) :
    cleanInvalidate l (cleanInvalidate l s) = cleanInvalidate l s := by
  cases hx : lineExists s.cfg l with
  | false => rw [cleanInvalidate_of_not_exists hx, cleanInvalidate_of_not_exists hx]
  | true => exact cleanInvalidate_of_none (cacheEntry_cleanInvalidate hx)

/-- Settles O38: after the first perform there is no entry, or no line, to perform. -/
theorem performIsIdempotent : Obligations.PerformIsIdempotent := by
  unfold Obligations.PerformIsIdempotent
  exact fun s l => cleanInvalidate_idem l s

/-! ## DC_ATOMIC -/

/-- Settles O23: completion with the operand's line performed at once. -/
theorem atomicDcCipaeCleansTheLineAtOnce : Obligations.AtomicDcCipaeCleansTheLineAtOnce := by
  unfold Obligations.AtomicDcCipaeCleansTheLineAtOnce
  intro t s l hinv ha hr hd hl hx
  have ho := cleanInvalidate_onlyLine l s
  obtain ⟨hc, hc'⟩ := uncached_cleanInvalidate hx
  exact ⟨_, exec_of_line_atomic ha hr hl hd, congrArg (· + 4) ho.pc, ho.fault,
    ho.pendingDC.trans (hinv.atomicEmpty hd), hc, hc',
    fun _ => memLine_cleanInvalidate_of_dirty hinv.stored, memLine_cleanInvalidate_of_clean hinv.stored⟩

/-- A request inserted and then performed leaves the other requests and the line cleaned and invalidated. -/
theorem maintain_pendingInsert (l : LineId) (s : State) :
    maintain l (s.setPending (pendingInsert l s.pendingDC)) = cleanInvalidate l s := by
  have hmem : l ∈ pendingInsert l s.pendingDC :=
    (pendingInsert_perm l s.pendingDC).mem_iff.mpr (by simp)
  obtain ⟨hn, -⟩ | ⟨-, h⟩ := maintain_cases l (s.setPending (pendingInsert l s.pendingDC))
  · exact absurd hmem hn
  · rw [h, State.setPending_pendingDC, pendingInsert_erase]
    rfl

/-- The move of `pc` and the perform do not meet. -/
theorem cleanInvalidate_advancePC (l : LineId) (s : State) :
    cleanInvalidate l (advancePC s) = advancePC (cleanInvalidate l s) := by
  rw [cleanInvalidate_congr l s (advancePC s) rfl rfl rfl rfl]
  conv_rhs => rw [(cleanInvalidate_onlyLine l s).fields]
  rfl

/-- Clean and invalidate does not look at DC_ATOMIC. -/
theorem cleanInvalidate_setAtomic (l : LineId) (s : State) (b : Bool) :
    cleanInvalidate l { s with cfg := { s.cfg with dcAtomic := b } } =
      { cleanInvalidate l s with cfg := { s.cfg with dcAtomic := b } } := by
  rw [cleanInvalidate_congr l s { s with cfg := { s.cfg with dcAtomic := b } } rfl rfl rfl rfl]
  conv_rhs => rw [(cleanInvalidate_onlyLine l s).fields]

/-- Settles O24: the request just inserted is the one performed, and the perform does not look at `pc` or the switch. -/
theorem atomicCompletionIsIssueThenPerform : Obligations.AtomicCompletionIsIssueThenPerform := by
  unfold Obligations.AtomicCompletionIsIssueThenPerform
  intro t s u l hd ha hl h
  obtain ⟨f, hf, -⟩ | ⟨-, -, -, hx⟩ | ⟨-, hr, hx⟩ := execDcCipae_cases t s
  · rw [ha] at hf
    cases hf
  · rw [hx] at h
    cases h
  · rw [exec_of_line_not_atomic ha hr hl hd] at h
    obtain rfl := Host.Outcome.next.inj h
    rw [show maintain l (advancePC (s.setPending (pendingInsert l s.pendingDC))) =
      advancePC (cleanInvalidate l s) from
        (maintain_pendingInsert l (advancePC s)).trans (cleanInvalidate_advancePC l s)]
    rw [exec_of_line_atomic (s := { s with cfg := { s.cfg with dcAtomic := true } }) ha hr hl rfl,
      cleanInvalidate_setAtomic]
    rfl

/-! ## Taking a turn -/

@[simp] theorem takeTurn_cached (s : State) (l : LineId) : cached (takeTurn s).2 l = cached s l := by
  rw [cached, cached, takeTurn_cacheEntry]

@[simp] theorem takeTurn_dirty (s : State) (l : LineId) : dirty (takeTurn s).2 l = dirty s l := by
  rw [dirty, dirty, takeTurn_cacheEntry]

@[simp] theorem takeTurn_memByte (s : State) (p : PASpace) (a : Nat) :
    memByte (takeTurn s).2 p a = memByte s p a :=
  memByte_congr (takeTurn_mem s) (takeTurn_cfg s) p a

theorem Stored.takeTurn (h : Stored s) : Stored (takeTurn s).2 :=
  h.congr (takeTurn_mem s) (takeTurn_cache s) (takeTurn_cfg s)

/-- A turn that is named is the one taken, and the state left is the one without it. -/
theorem snd_takeTurn_of_eq {t : Turn} (h : takeTurn s = (t, s')) : s' = (takeTurn s).2 := by rw [h]

/-- A turn decided first is the one taken. -/
theorem step_setSchedule_cons (s : State) (t : Turn) (ts : List Turn) :
    step (s.setSchedule (t :: ts)) = moveAgent t (s.setSchedule ts) := rfl

/-! ## The maintenance agent's turn -/

theorem step_maintenance (h : takeTurn s = (.maintenance l, s')) : step s = .next (maintain l s') :=
  step_of_turn h

theorem maintain_of_pending (h : l ∈ s.pendingDC) :
    maintain l s = (cleanInvalidate l s).setPending (s.pendingDC.erase l) := by
  obtain ⟨hn, -⟩ | ⟨-, hm⟩ := maintain_cases l s
  · exact absurd h hn
  · rw [hm, cleanInvalidate_setPending]

theorem maintain_of_not_pending (h : l ∉ s.pendingDC) : maintain l s = s := by
  simp [maintain, h]

@[simp] theorem maintain_pendingDC (l : LineId) (s : State) :
    (maintain l s).pendingDC = s.pendingDC.erase l :=
  (maintain_onlyLine l s).pendingDC

theorem uncached_maintain (h : l ∈ s.pendingDC) (hx : lineExists s.cfg l = true) :
    cached (maintain l s) l = none ∧ dirty (maintain l s) l = false := by
  rw [maintain_of_pending h]
  exact uncached_cleanInvalidate hx

theorem memLine_maintain (h : l ∈ s.pendingDC) :
    memLine (maintain l s) l = memLine (cleanInvalidate l s) l := by
  rw [maintain_of_pending h]
  rfl

/-- Settles O34: with the request pending, the turn is a clean and invalidate, which keeps R44's promise. -/
theorem performCleansAndInvalidates : Obligations.PerformCleansAndInvalidates := by
  unfold Obligations.PerformCleansAndInvalidates
  intro s s' l hinv ht hl hx
  obtain rfl := snd_takeTurn_of_eq ht
  have hs := hinv.stored.takeTurn
  rw [← takeTurn_pendingDC s] at hl
  obtain ⟨hc, hc'⟩ := uncached_maintain hl (by rwa [takeTurn_cfg])
  refine ⟨_, step_maintenance ht, hc, hc', by simp, fun d hd hdy => ?_, fun hdy => ?_⟩ <;>
    rw [memLine_maintain hl]
  · exact memLine_cleanInvalidate_of_dirty hs (by simpa using hd) (by simpa using hdy)
  · rw [memLine_cleanInvalidate_of_clean hs (by simpa using hdy), takeTurn_memLine]

/-- Settles O35: the turn changes its line and the pending requests alone. -/
theorem performChangesOneLineOnly : Obligations.PerformChangesOneLineOnly := by
  unfold Obligations.PerformChangesOneLineOnly
  intro s s' u l ht h
  have hk := step_statusKept h
  obtain rfl := snd_takeTurn_of_eq ht
  obtain rfl := Host.Outcome.next.inj ((step_maintenance ht).symm.trans h)
  have ho := maintain_onlyLine l (takeTurn s).2
  refine ⟨by rw [hk], ?_, by rw [hk], by rw [hk], by rw [hk], by rw [hk], by rw [hk], by rw [hk], ?_,
    fun l' hne => ⟨?_, ?_⟩, fun p a ha => ?_⟩
  · exact ho.pc.trans (takeTurn_pc s)
  · exact ho.fault.trans (takeTurn_fault s)
  · exact (ho.cached hne).trans (takeTurn_cached s l')
  · exact (ho.dirty hne).trans (takeTurn_dirty s l')
  · exact (ho.memByte p a (by simpa using ha)).trans (takeTurn_memByte s p a)

/-- Settles O36: the request is taken out, and the clean and invalidate of such a line is the identity. -/
theorem performOutsideTheDomainIsTheIdentity : Obligations.PerformOutsideTheDomainIsTheIdentity := by
  unfold Obligations.PerformOutsideTheDomainIsTheIdentity
  intro s s' l ht hl hx
  obtain rfl := snd_takeTurn_of_eq ht
  rw [step_maintenance ht, maintain_of_pending (by rwa [takeTurn_pendingDC]),
    cleanInvalidate_of_not_exists (by rwa [takeTurn_cfg]), takeTurn_pendingDC]
  rfl

/-- Settles O37: a line with no pending request is left alone. -/
theorem nothingIsPerformedBeforeItIsIssued : Obligations.NothingIsPerformedBeforeItIsIssued := by
  unfold Obligations.NothingIsPerformedBeforeItIsIssued
  intro s s' l ht hl
  obtain rfl := snd_takeTurn_of_eq ht
  rw [step_maintenance ht, maintain_of_not_pending (by rwa [takeTurn_pendingDC])]

/-! ## The environment agent's moves -/

theorem environment_of_not_exists (m : EnvMove) (hx : lineExists s.cfg l = false) :
    environment l m s = s := by
  simp [environment, hx]

/-- R24's Evict is the clean and invalidate, on a line outside MEM_DOMAIN too. -/
theorem environment_evict (l : LineId) (s : State) : environment l .evict s = cleanInvalidate l s := by
  cases hx : lineExists s.cfg l with
  | false => rw [environment_of_not_exists _ hx, cleanInvalidate_of_not_exists hx]
  | true => simp [environment, hx, envEvict]

section
variable (hx : lineExists s.cfg l = true)
include hx

theorem environment_fill (hc : cached s l = none) :
    environment l .fill s = setLine l (memLine s l) false s := by
  simp [environment, hx, envFill, hc]

theorem environment_cleanBG (hc : cached s l = some d) (hd : dirty s l = true) :
    environment l .cleanBG s = setLine l d false (writeLine l d s) := by
  simp [environment, hx, envCleanBG, hc, hd]

theorem environment_write (hd : d.length = s.cfg.lineBytes) :
    environment l (.write d) s = setLine l d true s := by
  simp [environment, hx, envWrite, hd]

theorem environment_writeThrough (hd : d.length = s.cfg.lineBytes) (hc : cached s l = none) :
    environment l (.writeThrough d) s = writeLine l d s := by
  simp [environment, hx, envWriteThrough, hd, hc]

end

/-! ### The moves that are not enabled -/

theorem environment_fill_of_cached (hc : cached s l ≠ none) : environment l .fill s = s := by
  obtain ⟨d, hd⟩ := Option.ne_none_iff_exists'.mp hc
  simp [environment, envFill, hd]

theorem environment_evict_of_uncached (hc : cached s l = none) : environment l .evict s = s := by
  rw [environment_evict, cleanInvalidate_of_none (cached_none_iff.mp hc)]

theorem environment_cleanBG_of_not_dirty (hd : dirty s l = false) : environment l .cleanBG s = s := by
  cases hc : cached s l <;> simp [environment, envCleanBG, hc, hd]

theorem environment_writeThrough_of_cached (hc : cached s l ≠ none) :
    environment l (.writeThrough d) s = s := by
  obtain ⟨d', hd⟩ := Option.ne_none_iff_exists'.mp hc
  simp [environment, envWriteThrough, hd]

/-- A value of another length than a line's is not written (log entry 22). -/
theorem environment_of_length_ne {m : EnvMove} (hm : m = .write d ∨ m = .writeThrough d)
    (hd : d.length ≠ s.cfg.lineBytes) : environment l m s = s := by
  obtain rfl | rfl := hm <;> simp [environment, hd]

/-! ## The environment agent's turn -/

theorem step_environment {m : EnvMove} (h : takeTurn s = (.environment l m, s')) :
    step s = .next (environment l m s') :=
  step_of_turn h

@[simp] theorem cached_setLine (l : LineId) (d : List Byte) (b : Bool) (s : State) :
    cached (setLine l d b s) l = some d :=
  cached_of_entry (cacheEntry_setLine l d b s)

@[simp] theorem dirty_setLine (l : LineId) (d : List Byte) (b : Bool) (s : State) :
    dirty (setLine l d b s) l = b :=
  dirty_of_entry (cacheEntry_setLine l d b s)

/-- Settles O39: the request is taken out, and what remains of the turn is the Evict. -/
theorem performIsAForcedEvict : Obligations.PerformIsAForcedEvict := by
  unfold Obligations.PerformIsAForcedEvict
  intro s l ts u hl h
  obtain rfl : environment l .evict (s.setSchedule ts) = u := Host.Outcome.next.inj h
  refine congrArg _ ((maintain_of_pending (s := s.setSchedule ts) hl).trans ?_)
  rw [environment_evict]
  rfl

/-- Settles O42: the line's entry is set to memory's value. -/
theorem fillCachesWhatMemoryHolds : Obligations.FillCachesWhatMemoryHolds := by
  unfold Obligations.FillCachesWhatMemoryHolds
  intro s s' l ht hx hc
  obtain rfl := snd_takeTurn_of_eq ht
  refine ⟨_, step_environment ht, ?_⟩
  rw [environment_fill (by rwa [takeTurn_cfg]) (by rwa [takeTurn_cached])]
  exact ⟨by simp, by simp, takeTurn_mem s⟩

/-- Settles O43: the Evict is the clean and invalidate, which writes a dirty value back. -/
theorem evictWritesBackAndDrops : Obligations.EvictWritesBackAndDrops := by
  unfold Obligations.EvictWritesBackAndDrops
  intro s s' l d hinv ht hx hc
  obtain rfl := snd_takeTurn_of_eq ht
  have hs := hinv.stored.takeTurn
  refine ⟨_, step_environment ht, ?_⟩
  rw [environment_evict]
  obtain ⟨hn, hn'⟩ := uncached_cleanInvalidate (s := (takeTurn s).2) (l := l) (by rwa [takeTurn_cfg])
  refine ⟨hn, hn', ?_⟩
  split
  · exact memLine_cleanInvalidate_of_dirty hs (by rwa [takeTurn_cached]) (by rwa [takeTurn_dirty])
  · rename_i hd
    rw [memLine_cleanInvalidate_of_clean hs (by simpa using hd), takeTurn_memLine]

/-- A cached value is LINE_BYTES bytes (R21). -/
theorem Stored.cached_length (h : Stored s) (hc : cached s l = some d) : d.length = s.cfg.lineBytes := by
  obtain ⟨e, he, rfl⟩ := cached_some_iff.mp hc
  exact h.entry_length he

/-- Settles O44: the value goes to memory, and the entry is set to it, clean. -/
theorem cleanBGWritesBackAndKeeps : Obligations.CleanBGWritesBackAndKeeps := by
  unfold Obligations.CleanBGWritesBackAndKeeps
  intro s s' l d hinv ht hx hc hd
  obtain rfl := snd_takeTurn_of_eq ht
  have hs := hinv.stored.takeTurn
  rw [← takeTurn_cached] at hc
  refine ⟨_, step_environment ht, ?_⟩
  rw [environment_cleanBG (by rwa [takeTurn_cfg]) hc (by rwa [takeTurn_dirty])]
  refine ⟨by simp, by simp, ?_⟩
  rw [memLine_setLine, memLine_writeLine (hs.memWf _) (hs.cached_length hc)]

/-- Settles O45: the line's entry is set to the value, dirty. -/
theorem writeLeavesTheLineDirty : Obligations.WriteLeavesTheLineDirty := by
  unfold Obligations.WriteLeavesTheLineDirty
  intro s s' l d ht hx hd
  obtain rfl := snd_takeTurn_of_eq ht
  refine ⟨_, step_environment ht, ?_⟩
  rw [environment_write (by rwa [takeTurn_cfg]) (by rwa [takeTurn_cfg])]
  exact ⟨by simp, by simp, takeTurn_mem s⟩

/-- Settles O46: the value goes to memory and to no cache. -/
theorem writeThroughReachesMemory : Obligations.WriteThroughReachesMemory := by
  unfold Obligations.WriteThroughReachesMemory
  intro s s' l d hinv ht hx hd hc
  obtain rfl := snd_takeTurn_of_eq ht
  rw [← takeTurn_cfg] at hd
  refine ⟨_, step_environment ht, ?_⟩
  rw [environment_writeThrough (by rwa [takeTurn_cfg]) hd (by rwa [takeTurn_cached])]
  exact ⟨memLine_writeLine (hinv.stored.takeTurn.memWf _) hd, takeTurn_cache s⟩

/-- Settles O47: the turn changes its line alone, and each move that is not enabled is the identity. -/
theorem environmentChangesOneLineOnly : Obligations.EnvironmentChangesOneLineOnly := by
  unfold Obligations.EnvironmentChangesOneLineOnly
  intro s s' l m ht
  obtain rfl := snd_takeTurn_of_eq ht
  have ho := environment_onlyLine l m (takeTurn s).2
  simp only [← takeTurn_cfg s, ← takeTurn_cached s, ← takeTurn_dirty s, ← takeTurn_memByte s]
  refine ⟨_, step_environment ht, ho.fields, environment_of_not_exists m, ?_, ?_, ?_, ?_, ?_,
    fun l' hne => ⟨ho.cached hne, ho.dirty hne⟩, ho.memByte⟩
  · rintro rfl hc
    exact environment_fill_of_cached hc
  · rintro rfl hc
    exact environment_evict_of_uncached hc
  · rintro rfl hd
    exact environment_cleanBG_of_not_dirty hd
  · rintro d rfl hc
    exact environment_writeThrough_of_cached hc
  · exact fun d => environment_of_length_ne

/-! ## Runs of maintenance turns -/

/-- Settles O48: the perform leaves the line uncached, so the Fill after it is enabled. -/
theorem invalidateIsNotDurable : Obligations.InvalidateIsNotDurable := by
  unfold Obligations.InvalidateIsNotDurable
  intro s l ts hl hx
  have hm : step (s.setSchedule (.maintenance l :: .environment l .fill :: ts)) =
      .next ((maintain l s).setSchedule (.environment l .fill :: ts)) := by
    rw [step_setSchedule_cons, ← maintain_setSchedule]
    rfl
  have hcfg : (maintain l s).cfg = s.cfg := (maintain_onlyLine l s).cfg
  have hf := environment_fill (s := (maintain l s).setSchedule ts)
    (by rw [State.setSchedule_cfg, hcfg]; exact hx) (uncached_maintain hl hx).1
  refine ⟨_, (run_succ_of_next hm 1).trans
    (run_succ_of_next (step_setSchedule_cons _ _ ts) 0), ?_⟩
  rw [hf]
  exact ⟨by simp, by simp, maintain_pendingDC l s⟩

end Sys2Proof.Machine

/-! Proofs about runs of maintenance turns: their order does not matter, and a turn for each request performs them all (R40,
R109). -/

namespace Sys2Proof.Machine

variable {s u : State} {l l' : LineId} {ls ls' : List LineId}

/-! ## Updates of two lines -/

theorem Banked.set_set_same {α : Type} (b : Banked α) (p : PASpace) (x y : α) :
    (b.set p x).set p y = b.set p y := by
  cases p <;> rfl

theorem Banked.set_comm {α : Type} (b : Banked α) {p q : PASpace} (x y : α) (h : q ≠ p) :
    (b.set p x).set q y = (b.set q y).set p x := by
  cases p <;> cases q <;> first | rfl | exact absurd rfl h

theorem dropLine_comm (l l' : LineId) (s : State) :
    dropLine l' (dropLine l s) = dropLine l (dropLine l' s) := by
  simp only [dropLine, State.setCache]
  by_cases hp : l'.space = l.space
  · simp only [hp, Banked.get_set_same, Banked.set_set_same, CacheBank.drop_comm _ l.idx]
  · rw [Banked.get_set_other _ _ hp, Banked.get_set_other _ _ (Ne.symm hp), Banked.set_comm _ _ _ hp]

theorem writeLine_dropLine (l l' : LineId) (d : List Byte) (s : State) :
    writeLine l' d (dropLine l s) = dropLine l (writeLine l' d s) := rfl

/-- Two lines have no byte in common, so writing them back commutes. -/
theorem writeLine_comm (hs : Stored s) (hl : l' ≠ l) (d d' : List Byte) :
    writeLine l' d' (writeLine l d s) = writeLine l d (writeLine l' d' s) := by
  simp only [writeLine, State.setMem]
  by_cases hp : l'.space = l.space
  · have hlen := List.length_take_le s.cfg.lineBytes d
    have hlen' := List.length_take_le s.cfg.lineBytes d'
    have hd := lines_disjoint s.cfg (lineId_idx_ne hl hp)
    simp only [hp, Banked.get_set_same, Banked.set_set_same]
    rw [Memory.writeBytes_comm (hs.memWf l.space) (by omega)]
  · rw [Banked.get_set_other _ _ hp, Banked.get_set_other _ _ (Ne.symm hp), Banked.set_comm _ _ _ hp]

/-! ## Performing two lines -/

/-- The clean and invalidate of a line that exists and is cached. -/
theorem cleanInvalidate_of_entry {e : CacheLine} (hx : lineExists s.cfg l = true)
    (he : cacheEntry s l = some e) :
    cleanInvalidate l s = dropLine l (if e.dirty then writeLine l e.data s else s) := by
  simp [cleanInvalidate, hx, he]

/-- The clean and invalidate that finds nothing to do. -/
theorem cleanInvalidate_of_idle (h : lineExists s.cfg l = false ∨ cacheEntry s l = none) :
    cleanInvalidate l s = s :=
  h.elim cleanInvalidate_of_not_exists cleanInvalidate_of_none

/-- Clean and invalidate of two lines commute: neither touches the other's entry or bytes. -/
theorem cleanInvalidate_comm (hs : Stored s) (l l' : LineId) :
    cleanInvalidate l' (cleanInvalidate l s) = cleanInvalidate l (cleanInvalidate l' s) := by
  by_cases hl : l' = l
  · rw [hl]
  have ho := cleanInvalidate_onlyLine l s
  have ho' := cleanInvalidate_onlyLine l' s
  have hent : cacheEntry (cleanInvalidate l s) l' = cacheEntry s l' := ho.entries l' hl
  have hent' : cacheEntry (cleanInvalidate l' s) l = cacheEntry s l := ho'.entries l (Ne.symm hl)
  obtain ⟨h, hc⟩ | ⟨e, hx, he, hc⟩ := cleanInvalidate_cases l s
  · rw [hc]
    exact (cleanInvalidate_of_idle (by rwa [ho'.cfg, hent'])).symm
  obtain ⟨h, hc'⟩ | ⟨e', hx', he', hc'⟩ := cleanInvalidate_cases l' s
  · rw [hc']
    exact cleanInvalidate_of_idle (by rwa [ho.cfg, hent])
  · rw [cleanInvalidate_of_entry (by rwa [ho.cfg]) (hent.trans he'),
      cleanInvalidate_of_entry (by rwa [ho'.cfg]) (hent'.trans he), hc, hc']
    cases e.dirty <;> cases e'.dirty <;>
      simp [writeLine_dropLine, dropLine_comm l, writeLine_comm hs hl e.data]

theorem Stored.maintain (hs : Stored s) (l : LineId) : Stored (Machine.maintain l s) := by
  by_cases hl : l ∈ s.pendingDC
  · rw [maintain_of_pending hl]
    exact (hs.cleanInvalidate l).congr rfl rfl rfl
  · rwa [maintain_of_not_pending hl]

/-- Two requests may be performed in either order (R40). -/
theorem maintain_comm (hs : Stored s) (l l' : LineId) :
    maintain l' (maintain l s) = maintain l (maintain l' s) := by
  by_cases hl : l' = l
  · rw [hl]
  have mem_iff : ∀ {a b : LineId}, a ≠ b → (a ∈ (maintain b s).pendingDC ↔ a ∈ s.pendingDC) :=
    fun hab => by rw [maintain_pendingDC, List.mem_erase_of_ne hab]
  by_cases h : l ∈ s.pendingDC
  · by_cases h' : l' ∈ s.pendingDC
    · rw [maintain_of_pending ((mem_iff hl).mpr h'), maintain_of_pending ((mem_iff (Ne.symm hl)).mpr h),
        maintain_of_pending h, maintain_of_pending h', cleanInvalidate_setPending,
        cleanInvalidate_setPending, cleanInvalidate_comm hs l l', State.setPending_pendingDC,
        State.setPending_pendingDC, List.erase_comm]
      rfl
    · rw [maintain_of_not_pending h', maintain_of_not_pending (mt (mem_iff hl).mp h')]
  · rw [maintain_of_not_pending h, maintain_of_not_pending (mt (mem_iff (Ne.symm hl)).mp h)]

/-! ## A list of maintenance turns -/

/-- The maintenance agent takes a turn for each line of the list. -/
def maintainAll (ls : List LineId) (s : State) : State := ls.foldl (fun s l => maintain l s) s

@[simp] theorem maintainAll_cons (l : LineId) (ls : List LineId) (s : State) :
    maintainAll (l :: ls) s = maintainAll ls (maintain l s) := rfl

/-- A run of the turns decided does what the list of turns does. -/
theorem run_maintenance (ls : List LineId) (ts : List Turn) (s : State) :
    Host.Core.run core ls.length (s.setSchedule (ls.map .maintenance ++ ts)) =
      .next ((maintainAll ls s).setSchedule ts) := by
  induction ls generalizing s with
  | nil => rfl
  | cons l ls ih =>
    have hstep : step (s.setSchedule ((l :: ls).map .maintenance ++ ts)) =
        .next ((maintain l s).setSchedule (ls.map .maintenance ++ ts)) :=
      congrArg Host.Outcome.next (maintain_setSchedule l s _)
    rw [List.length_cons, run_succ_of_next hstep, ih]
    rfl

theorem maintainAll_perm (hp : ls.Perm ls') (hs : Stored s) : maintainAll ls s = maintainAll ls' s := by
  induction hp generalizing s with
  | nil => rfl
  | cons l _ ih => exact ih (hs.maintain l)
  | swap l l' ls => rw [maintainAll_cons, maintainAll_cons, maintainAll_cons, maintainAll_cons,
      maintain_comm hs]
  | trans _ _ ih ih' => exact (ih hs).trans (ih' hs)

/-- Settles O40: permuted turns do the same, since any two neighbours commute. -/
theorem maintenanceOrderIsIrrelevant : Obligations.MaintenanceOrderIsIrrelevant := by
  unfold Obligations.MaintenanceOrderIsIrrelevant
  intro s ls ls' ts hinv hp
  refine (run_maintenance ls ts s).trans (.trans ?_ (run_maintenance ls' ts s).symm)
  rw [maintainAll_perm hp hinv.stored]

/-- A perform takes no line in: what is uncached stays uncached. -/
theorem cacheEntry_maintain_none (l' : LineId) (h : cacheEntry s l = none) :
    cacheEntry (maintain l' s) l = none := by
  by_cases hl : l = l'
  · subst hl
    by_cases hp : l ∈ s.pendingDC
    · rwa [maintain_of_pending hp, cleanInvalidate_of_none h]
    · rwa [maintain_of_not_pending hp]
  · exact ((maintain_onlyLine l' s).entries l hl).trans h

theorem cacheEntry_maintainAll_none (ls : List LineId) (h : cacheEntry s l = none) :
    cacheEntry (maintainAll ls s) l = none := by
  induction ls generalizing s with
  | nil => exact h
  | cons l' ls ih => exact ih (cacheEntry_maintain_none l' h)

/-- A turn for each pending request performs them all. -/
theorem maintainAll_performs (hp : ls.Perm s.pendingDC) :
    (maintainAll ls s).pendingDC = [] ∧
      ∀ l ∈ ls, lineExists s.cfg l = true → cacheEntry (maintainAll ls s) l = none := by
  induction ls generalizing s with
  | nil => exact ⟨hp.nil_eq.symm, by simp⟩
  | cons l ls ih =>
    have hmem : l ∈ s.pendingDC := hp.subset (by simp)
    have hrest : ls.Perm (maintain l s).pendingDC := by
      rw [maintain_pendingDC]
      exact (List.cons_perm_iff_perm_erase.mp hp).2
    obtain ⟨hq, hc⟩ := ih hrest
    refine ⟨hq, fun l' hl' hx => ?_⟩
    obtain rfl | hl' := List.mem_cons.mp hl'
    · exact cacheEntry_maintainAll_none ls (cached_none_iff.mp (uncached_maintain hmem hx).1)
    · exact hc l' hl' (by rwa [(maintain_onlyLine l s).cfg])

/-- Settles O41: the run is the list of turns, which performs every request. -/
theorem everyRequestIsPerformedGivenItsTurn : Obligations.EveryRequestIsPerformedGivenItsTurn := by
  unfold Obligations.EveryRequestIsPerformedGivenItsTurn
  intro s ls ts hp
  obtain ⟨hq, hc⟩ := maintainAll_performs hp
  exact ⟨_, run_maintenance ls ts s, hq, rfl,
    fun l hl hx => uncached_of_no_entry (hc l hl hx)⟩

end Sys2Proof.Machine

/-! Proofs about the PE's turn, and what each agent's turn does to `pc`, the fault record and the pending requests (R12,
R23, R26, R36, R50). -/

namespace Sys2Proof.Machine

variable {s s' u : State} {t : Turn} {i : Instr}

/-! ## The program text -/

/-- Byte `j` of word `k` lies `4k + j` bytes above the base (R36, R105). -/
theorem textByte_of_word {p : Program} {k j : Nat} {w : Word32} (hw : p.words[k]? = some w) (hj : j < 4) :
    textByte p (p.base.toNat + 4 * k + j) = (bytesOfWord w)[j]? := by
  have hoff : p.base.toNat + 4 * k + j - p.base.toNat = 4 * k + j := by omega
  have hdiv : (4 * k + j) / 4 = k := by omega
  have hmod : (4 * k + j) % 4 = j := by omega
  rw [textByte, if_pos (by omega), hoff, hdiv, hmod, hw]

theorem textBytes_of_word {p : Program} {k : Nat} {w : Word32} (hw : p.words[k]? = some w) :
    textBytes p (p.base.toNat + 4 * k) = some (bytesOfWord w) := by
  have h0 := textByte_of_word hw (j := 0) (by omega)
  have h1 := textByte_of_word hw (j := 1) (by omega)
  have h2 := textByte_of_word hw (j := 2) (by omega)
  have h3 := textByte_of_word hw (j := 3) (by omega)
  rw [Nat.add_zero] at h0
  rw [textBytes, h0, h1, h2, h3]
  rfl

/-! ## The fetch -/

theorem fetch_of_misaligned (h : s.pc.toNat % 4 ≠ 0) : fetch s = .error .pcMisaligned := by
  simp [fetch, h]

section
variable (ha : s.pc.toNat % 4 = 0)
include ha

theorem fetch_of_top (h : 2 ^ 64 - 8 < s.pc.toNat) : fetch s = .error .pcAtTop := by
  rw [fetch, if_neg (not_not.mpr ha), if_pos h]

variable (hp : s.pc.toNat ≤ 2 ^ 64 - 8)
include hp

theorem fetch_of_no_text (h : textBytes s.program s.pc.toNat = none) :
    fetch s = .error .noProgramWord := by
  rw [fetch, if_neg (not_not.mpr ha), if_neg (Nat.not_lt.mpr hp), h]

theorem fetch_of_decode {bs rest : List Byte} (hb : textBytes s.program s.pc.toNat = some bs)
    (hd : decode bs = .ok (i, rest)) : fetch s = .ok i := by
  rw [fetch, if_neg (not_not.mpr ha), if_neg (Nat.not_lt.mpr hp), hb]
  dsimp only
  rw [hd]

theorem fetch_of_not_shown {bs : List Byte} {e : DecodeError}
    (hb : textBytes s.program s.pc.toNat = some bs) (hd : decode bs = .error e) :
    fetch s = .error .notShown := by
  rw [fetch, if_neg (not_not.mpr ha), if_neg (Nat.not_lt.mpr hp), hb]
  dsimp only
  rw [hd]

end

@[simp] theorem fetch_takeTurn (s : State) : fetch (takeTurn s).2 = fetch s := by
  rw [fetch, takeTurn_pc, takeTurn_program]
  rfl

/-! ## The PE's turn -/

theorem step_pe (ht : takeTurn s = (.pe, s')) : step s = stepPE (takeTurn s).2 := by
  rw [step_of_turn ht, snd_takeTurn_of_eq ht]
  rfl

theorem step_of_fetch (ht : takeTurn s = (.pe, s')) (hf : s.fault = none) (h : fetch s = .ok i) :
    step s = exec i s' := by
  rw [step_pe ht, stepPE, takeTurn_fault, hf, fetch_takeTurn, h, snd_takeTurn_of_eq ht]

theorem step_of_fetch_refused {r : Refusal} (ht : takeTurn s = (.pe, s')) (hf : s.fault = none)
    (h : fetch s = .error r) : step s = .refused r := by
  rw [step_pe ht, stepPE, takeTurn_fault, hf, fetch_takeTurn, h]

/-- Settles O28: the fetch gives the instruction, and `exec` runs on the state with the turn taken. -/
theorem stepRunsTheDecodedInstruction : Obligations.StepRunsTheDecodedInstruction := by
  unfold Obligations.StepRunsTheDecodedInstruction
  exact fun _ _ _ _ _ ht hf ha hp hb hd => step_of_fetch ht hf (fetch_of_decode ha hp hb hd)

/-- Settles O29: the four bytes at the word's address are the word's, and a text in its place leaves room above them. -/
theorem placedInstructionRuns : Obligations.PlacedInstructionRuns := by
  unfold Obligations.PlacedInstructionRuns
  intro s s' k i ht hf hwf hw hpc
  obtain ⟨hk, -⟩ := List.getElem?_eq_some_iff.mp hw
  simp only [Program.wellFormed, Bool.and_eq_true, decide_eq_true_eq] at hwf
  obtain ⟨hbase, hend⟩ := hwf
  have hb : textBytes s.program s.pc.toNat = some (encode i) := by
    rw [hpc]
    exact textBytes_of_word hw
  exact step_of_fetch ht hf (fetch_of_decode (by omega) (by omega) hb
    (decode_eq_ok_iff.mpr (List.append_nil _).symm))

/-- Settles O31: each refusal of the fetch is the answer of the PE's turn. -/
theorem refusedFetches : Obligations.RefusedFetches := by
  unfold Obligations.RefusedFetches
  intro s s' ht hf
  refine ⟨fun h => ?_, fun ha h => ?_, fun ha hp h => ?_, fun w ha hp hb hw => ?_⟩ <;>
    refine step_of_fetch_refused ht hf ?_
  · exact fetch_of_misaligned h
  · exact fetch_of_top ha h
  · exact fetch_of_no_text ha hp h
  · exact fetch_of_not_shown ha hp hb (decode_bytesOfWord_of_not_masked hw)

/-- Settles O32: the PE looks at the fault record first. -/
theorem stoppedPEHasNoStep : Obligations.StoppedPEHasNoStep := by
  unfold Obligations.StoppedPEHasNoStep
  intro s s' f ht hf
  rw [step_pe ht, stepPE, takeTurn_fault, hf]

/-- Settles O30: the two cases of taking a turn. -/
theorem turnsComeFromTheScheduleThenFree : Obligations.TurnsComeFromTheScheduleThenFree := by
  unfold Obligations.TurnsComeFromTheScheduleThenFree
  exact ⟨fun _ _ _ => takeTurn_cons, fun _ => takeTurn_nil⟩

/-! ## What a turn does to `pc`, the fault record and the pending requests -/

/-- The ways a turn that leads from `s` to `u` may change `pc`, the fault record and the pending requests. -/
inductive Control (s u : State) : Turn → Prop where
  /-- The PE, at an instruction of the text, records the exception the access check ended in (R86). -/
  | records (f : Fault) (noFault : s.fault = none) (check : accessCheck s = some f)
      (fault : u.fault = some f) (inText : s.pc.toNat < programEnd s.program)
      (pc : u.pc = s.pc) (pending : u.pendingDC = s.pendingDC) :
      Control s u .pe
  /-- The PE completes an instruction of the text, with at most one request for a Realm line (R70, R72). -/
  | completes (noFault : s.fault = none) (check : accessCheck s = none) (fault : u.fault = none)
      (inText : s.pc.toNat < programEnd s.program) (low : s.pc.toNat ≤ 2 ^ 64 - 8)
      (pc : u.pc = s.pc + 4)
      (pending : u.pendingDC = s.pendingDC ∨ ∃ l, s.cfg.dcAtomic = false ∧ l.space = .realm ∧
        u.pendingDC = pendingInsert l s.pendingDC) :
      Control s u .pe
  /-- The maintenance agent takes out a request, if there is one for its line (R71). -/
  | maintains (l : LineId) (fault : u.fault = s.fault) (pc : u.pc = s.pc)
      (pending : u.pendingDC = s.pendingDC.erase l) : Control s u (.maintenance l)
  /-- The environment agent touches none of the three (R24). -/
  | moves (l : LineId) (m : EnvMove) (fault : u.fault = s.fault) (pc : u.pc = s.pc)
      (pending : u.pendingDC = s.pendingDC) : Control s u (.environment l m)

theorem requestTarget_pending (v : Word64) (s : State) :
    (requestTarget v s).pendingDC = s.pendingDC ∨
      ∃ l, s.cfg.dcAtomic = false ∧ l.space = .realm ∧
        (requestTarget v s).pendingDC = pendingInsert l s.pendingDC := by
  obtain ⟨-, h⟩ | ⟨l, hl, ⟨hd, h⟩ | ⟨-, h⟩⟩ := requestTarget_cases v s <;> rw [h]
  · exact .inl rfl
  · exact .inr ⟨l, hd, by rw [(targetLine_space hl).1], rfl⟩
  · exact .inl (cleanInvalidate_onlyLine l s).pendingDC

theorem moveAgent_control (h : moveAgent t s = .next u) : Control s u t := by
  obtain ⟨rfl, hf, i, hi, hx⟩ | ⟨l, rfl, rfl⟩ | ⟨l, m, rfl, rfl⟩ := moveAgent_cases h
  · obtain ⟨-, hp, bs, -, hb, -⟩ := fetch_ok hi
    obtain ⟨r, -, ⟨f, ha, rfl⟩ | ⟨ha, rfl⟩⟩ := exec_next_cases hx
    · exact .records f hf ha rfl (textBytes_range hb).2 rfl rfl
    · exact .completes hf ha ((requestTarget_fault _ s).trans hf) (textBytes_range hb).2 hp
        (congrArg (· + 4) (requestTarget_pc _ s)) (requestTarget_pending _ s)
  · have ho := maintain_onlyLine l s
    exact .maintains l ho.fault ho.pc ho.pendingDC
  · have ho := environment_onlyLine l m s
    exact .moves l m ho.fault ho.pc ho.pendingDC

@[simp] theorem accessCheck_takeTurn (s : State) : accessCheck (takeTurn s).2 = accessCheck s :=
  accessCheck_congr (by simp) (by simp) (by simp) (by simp) (by simp) (by simp)

theorem Control.of_takeTurn (h : Control (takeTurn s).2 u t) : Control s u t := by
  cases h with
  | records f noFault check fault inText pc pending =>
    exact .records f (by simpa using noFault) (by simpa using check) fault (by simpa using inText)
      (by simpa using pc) (by simpa using pending)
  | completes noFault check fault inText low pc pending =>
    exact .completes (by simpa using noFault) (by simpa using check) fault (by simpa using inText)
      (by simpa using low) (by simpa using pc) (by simpa using pending)
  | maintains l fault pc pending =>
    exact .maintains l (by simpa using fault) (by simpa using pc) (by simpa using pending)
  | moves l m fault pc pending =>
    exact .moves l m (by simpa using fault) (by simpa using pc) (by simpa using pending)

theorem step_control (h : step s = .next u) : Control s u (takeTurn s).1 :=
  (moveAgent_control h).of_takeTurn

/-- The other agents always have a move (R91). -/
theorem step_next_of_not_pe (h : (takeTurn s).1 ≠ .pe) : ∃ u, step s = .next u := by
  rw [step]
  cases ht : (takeTurn s).1 with
  | pe => exact absurd ht h
  | maintenance l => exact ⟨_, rfl⟩
  | environment l m => exact ⟨_, rfl⟩

/-- Settles O33: with a fault recorded the PE's turn gives no next state, and no other turn changes the record or `pc`. -/
theorem faultRecordIsNeverCleared : Obligations.FaultRecordIsNeverCleared := by
  unfold Obligations.FaultRecordIsNeverCleared
  refine ⟨fun s u f hf h => ?_, fun s => step_next_of_not_pe⟩
  have hc := step_control h
  generalize (takeTurn s).1 = t at hc
  cases hc with
  | records _ noFault => simp [hf] at noFault
  | completes noFault => simp [hf] at noFault
  | maintains l fault pc => exact ⟨fault.trans hf, pc⟩
  | moves l m fault pc => exact ⟨fault.trans hf, pc⟩

/-- Settles O57: each agent's part of `Control`. -/
theorem pendingRequestsBookkeeping : Obligations.PendingRequestsBookkeeping := by
  unfold Obligations.PendingRequestsBookkeeping
  intro s u h
  have hc := step_control h
  generalize (takeTurn s).1 = t at hc
  cases hc with
  | records _ _ _ _ _ _ pending => exact .inl pending
  | completes _ _ _ _ _ _ pending =>
    obtain pending | ⟨l, -, hl, pending⟩ := pending
    · exact .inl pending
    · exact .inr ⟨l, hl, by rw [pending]; exact pendingInsert_perm l _⟩
  | maintains l _ _ pending => exact pending
  | moves l m _ _ pending => exact pending

/-! ## Final states -/

/-- Past the text there is no word: no byte of the text lies at or above its end (R110). -/
theorem textBytes_programEnd (p : Program) : textBytes p (programEnd p) = none := by
  cases h : textBytes p (programEnd p) with
  | none => rfl
  | some bs => exact absurd (textBytes_range h).2 (Nat.lt_irrefl _)

theorem Final.of_step_of_not_pe (hF : Final s) (ht : (takeTurn s).1 ≠ .pe) (h : step s = .next u) :
    Final u := by
  obtain ⟨hpc, hf, hq⟩ := hF
  have hprog : u.program = s.program := by rw [step_statusKept h]
  have hc := step_control h
  generalize (takeTurn s).1 = t at hc ht
  cases hc with
  | records => exact absurd rfl ht
  | completes => exact absurd rfl ht
  | maintains l fault pc pending =>
    exact ⟨by rw [pc, hpc, hprog], fault.trans hf, by rw [pending, hq]; rfl⟩
  | moves l m fault pc pending =>
    exact ⟨by rw [pc, hpc, hprog], fault.trans hf, pending.trans hq⟩

/-- Settles O58: past the text the fetch is refused, and the turns of the other agents keep a final state final. -/
theorem finalStates : Obligations.FinalStates := by
  unfold Obligations.FinalStates
  refine ⟨fun s s' hwf ⟨hpc, hf, _⟩ ht => step_of_fetch_refused ht hf ?_, fun s hF ht => ?_,
    fun s f hf ⟨_, hn, _⟩ => ?_⟩
  · have ha : s.pc.toNat % 4 = 0 := by
      simp only [Program.wellFormed, Bool.and_eq_true, decide_eq_true_eq] at hwf
      rw [hpc, programEnd]
      omega
    split
    · exact fetch_of_no_text ha ‹_› (by rw [hpc]; exact textBytes_programEnd _)
    · exact fetch_of_top ha (Nat.not_le.mp ‹_›)
  · obtain ⟨u, h⟩ := step_next_of_not_pe ht
    exact ⟨u, h, hF.of_step_of_not_pe ht h⟩
  · simp [hf] at hn

end Sys2Proof.Machine

/-! Proofs about the whole machine: the state after reset, the invariant, the stores every step keeps in order, and runs
(R21 to R27, R105). -/

namespace Sys2Proof.Machine

variable {s u v : State} {l : LineId}

/-! ## The state after reset -/

theorem reset_mem (p : PASpace) : State.reset.mem.get p = [] := by
  cases p <;> rfl

theorem reset_cache (p : PASpace) : State.reset.cache.get p = [] := by
  cases p <;> rfl

/-- At reset MEM_DOMAIN is the Realm addresses below 2^48 (log entry 3). -/
theorem inDomain_reset (p : PASpace) (a : Nat) :
    inDomain State.reset.cfg p a = decide (p = .realm ∧ a < 2 ^ 48) := by
  have h : inDomain State.reset.cfg p a =
      (decide (a < 2 ^ 48) && (decide (PASpace.realm = p ∧ 0 ≤ a ∧ a < 0 + 2 ^ 48) || false)) := rfl
  rw [h, Bool.eq_iff_iff]
  generalize 2 ^ 48 = n
  simp only [Bool.and_eq_true, Bool.or_false, decide_eq_true_eq]
  constructor
  · rintro ⟨ha, rfl, -⟩
    exact ⟨rfl, ha⟩
  · rintro ⟨rfl, ha⟩
    exact ⟨ha, rfl, Nat.zero_le a, by omega⟩

theorem memByte_reset (p : PASpace) (a : Nat) :
    memByte State.reset p a = if p = .realm ∧ a < 2 ^ 48 then some 0 else none := by
  simp only [memByte, inDomain_reset, decide_eq_true_eq, reset_mem]
  rfl

theorem readX_reset (t : RegNum) : readX t State.reset = 0 := by
  rw [readX]
  split
  · exact Vector.getElem_replicate _
  · rfl

theorem cacheEntry_reset (l : LineId) : cacheEntry State.reset l = none := by
  rw [cacheEntry, reset_cache]
  rfl

/-- Settles O49: every field by evaluation; the registers, memory and caches read alike everywhere. -/
theorem resetState : Obligations.ResetState := by
  unfold Obligations.ResetState
  exact ⟨rfl, rfl, ⟨rfl, rfl, rfl, rfl, rfl, rfl, rfl⟩, readX_reset, rfl, rfl, rfl, rfl, rfl,
    memByte_reset, fun l => uncached_of_no_entry (cacheEntry_reset l), rfl, rfl, rfl, rfl⟩

/-- Settles O50: at reset the stores, the requests and the text are empty. -/
theorem resetMeetsTheInvariant : Obligations.ResetMeetsTheInvariant := by
  unfold Obligations.ResetMeetsTheInvariant
  constructor
  case cfgOk => decide
  case programOk => decide
  case pcAligned => rfl
  case atomicEmpty => exact fun _ => rfl
  case pendingSorted => exact .nil
  case trapOldOnly => exact fun _ h => nomatch h
  all_goals
    intro p
    simp [reset_mem, reset_cache, Memory.wf]

/-! ## The stores -/

/-- Two states that cache the same lines and hold the same bytes, under the same parameters. -/
structure SameStores (s u : State) : Prop where
  cfg : u.cfg = s.cfg
  cache : u.cache = s.cache
  mem : u.mem = s.mem

theorem SameStores.refl (s : State) : SameStores s s := ⟨rfl, rfl, rfl⟩

theorem takeTurn_sameStores (s : State) : SameStores s (takeTurn s).2 := by
  constructor <;> simp

section
variable (h : SameStores s u)
include h

theorem SameStores.cacheEntry (l : LineId) : Machine.cacheEntry u l = Machine.cacheEntry s l := by
  rw [Machine.cacheEntry, Machine.cacheEntry, h.cache]

theorem SameStores.memLine (l : LineId) : Machine.memLine u l = Machine.memLine s l := by
  rw [Machine.memLine, Machine.memLine, h.mem, h.cfg]

theorem SameStores.stored (hs : Stored s) : Stored u := hs.congr h.mem h.cache h.cfg

end

theorem exec_sameStores {i : Instr} (h : exec i s = .next u) :
    ∃ w, SameStores w u ∧ (w = s ∨ ∃ l, w = cleanInvalidate l s) := by
  obtain ⟨t, -, ⟨f, -, rfl⟩ | ⟨-, rfl⟩⟩ := exec_next_cases h
  · exact ⟨s, ⟨rfl, rfl, rfl⟩, .inl rfl⟩
  · obtain ⟨-, hx⟩ | ⟨l, -, ⟨-, hx⟩ | ⟨-, hx⟩⟩ := requestTarget_cases (readX t s) s <;> rw [hx]
    · exact ⟨s, ⟨rfl, rfl, rfl⟩, .inl rfl⟩
    · exact ⟨s, ⟨rfl, rfl, rfl⟩, .inl rfl⟩
    · exact ⟨cleanInvalidate l s, ⟨rfl, rfl, rfl⟩, .inr ⟨l, rfl⟩⟩

theorem maintain_sameStores (l : LineId) (s : State) :
    ∃ w, SameStores w (maintain l s) ∧ (w = s ∨ ∃ l, w = cleanInvalidate l s) := by
  by_cases hl : l ∈ s.pendingDC
  · rw [maintain_of_pending hl]
    exact ⟨cleanInvalidate l s, ⟨rfl, rfl, rfl⟩, .inr ⟨l, rfl⟩⟩
  · rw [maintain_of_not_pending hl]
    exact ⟨s, .refl s, .inl rfl⟩

/-- What a step may do to the stores: nothing, clean and invalidate one line, or one move of the environment. -/
theorem step_stores (h : step s = .next u) :
    ∃ w, SameStores w u ∧ (w = (takeTurn s).2 ∨ (∃ l, w = cleanInvalidate l (takeTurn s).2) ∨
      ∃ l m, (takeTurn s).1 = .environment l m ∧ w = environment l m (takeTurn s).2) := by
  obtain ⟨-, -, i, -, hx⟩ | ⟨l, -, rfl⟩ | ⟨l, m, ht, rfl⟩ := step_cases h
  · obtain ⟨w, hw, hc⟩ := exec_sameStores hx
    exact ⟨w, hw, hc.imp_right .inl⟩
  · obtain ⟨w, hw, hc⟩ := maintain_sameStores l (takeTurn s).2
    exact ⟨w, hw, hc.imp_right .inl⟩
  · exact ⟨_, .refl _, .inr (.inr ⟨l, m, ht, rfl⟩)⟩

/-! ## The invariant -/

theorem Stored.environment (hs : Stored s) (l : LineId) (m : EnvMove) :
    Stored (Machine.environment l m s) := by
  obtain h | ⟨hx, ⟨-, -, h⟩ | ⟨-, h⟩ | ⟨e, -, he, -, h⟩ | ⟨d, -, hd, h⟩ | ⟨d, -, -, -, h⟩⟩ :=
    environment_cases l m s <;> rw [h]
  · exact hs
  · exact hs.setLine false (Memory.length_readBytes _ _ _) hx
  · exact hs.cleanInvalidate l
  · exact (hs.writeLine e.data hx).setLine false (hs.entry_length he) hx
  · exact hs.setLine true hd hx
  · exact hs.writeLine d hx

theorem step_keeps_stored (hs : Stored s) (h : step s = .next u) : Stored u := by
  obtain ⟨w, hw, rfl | ⟨l, rfl⟩ | ⟨l, m, -, rfl⟩⟩ := step_stores h <;> refine hw.stored ?_
  · exact hs.takeTurn
  · exact hs.takeTurn.cleanInvalidate l
  · exact hs.takeTurn.environment l m

/-- The check ends in a trap under the old edition only, and with the page's number (R87). -/
theorem accessCheck_trap {ec : Nat} (h : accessCheck s = some (.trapToEL2 ec)) :
    s.cfg.edition = .old ∧ ec = systemAccessEC := by
  cases hm : s.cfg.featMec with
  | false => simp [accessCheck_of_featMec_absent hm] at h
  | true =>
    cases he : s.cfg.edition with
    | new => cases accessCheck_new_eq_undefined he h
    | old =>
      rw [accessCheck_eq_levelCheckOld he hm] at h
      refine ⟨rfl, ?_⟩
      cases hl : s.el with
      | el0 => simp [levelCheckOld_el0 hl] at h
      | el1 =>
        by_cases ht : s.el2Enabled = true ∧ s.hcrEl2Nv = 1
        · rw [levelCheckOld_el1_of_trap hl ht] at h
          cases h
          rfl
        · simp [levelCheckOld_el1_of_no_trap hl ht] at h
      | el2 => simp [levelCheckOld_el2 hl] at h
      | el3 => simp [levelCheckOld_el3 hl] at h

/-- The part of the invariant that speaks of `pc`, the pending requests and the fault record. -/
structure ControlInv (s : State) : Prop where
  pcAligned : s.pc.toNat % 4 = 0
  pendingSorted : s.pendingDC.Pairwise (fun a b => LineId.le a b = true)
  atomicEmpty : s.cfg.dcAtomic = true → s.pendingDC = []
  trapOldOnly : ∀ ec, s.fault = some (.trapToEL2 ec) → s.cfg.edition = .old ∧ ec = systemAccessEC

/-- The next instruction's address is aligned as the last one's: `pc` does not wrap. -/
theorem pc_add_four_aligned {pc : Word64} (h : pc.toNat % 4 = 0) : (pc + 4).toNat % 4 = 0 := by
  bv_omega

theorem Control.keeps_controlInv {t : Turn} (h : Control s u t) (hcfg : u.cfg = s.cfg)
    (hs : ControlInv s) : ControlInv u := by
  obtain ⟨ha, hq, he, hx⟩ := hs
  cases h with
  | records f _ check fault _ pc pending =>
    refine ⟨by rwa [pc], by rwa [pending], by rwa [hcfg, pending], fun ec hec => ?_⟩
    rw [fault] at hec
    rw [hcfg]
    exact accessCheck_trap (check.trans hec)
  | completes _ _ fault _ _ pc pending =>
    refine ⟨by rw [pc]; exact pc_add_four_aligned ha, ?_, ?_, by simp [fault]⟩
    · obtain pending | ⟨l, -, -, pending⟩ := pending <;> rw [pending]
      · exact hq
      · exact pendingInsert_sorted hq l
    · rw [hcfg]
      obtain pending | ⟨l, hd, -⟩ := pending
      · rwa [pending]
      · simp [hd]
  | maintains l fault pc pending =>
    refine ⟨by rwa [pc], ?_, fun hd => ?_, by rwa [hcfg, fault]⟩ <;> rw [pending]
    · exact hq.sublist List.erase_sublist
    · rw [he (hcfg ▸ hd)]
      rfl
  | moves l m fault pc pending =>
    exact ⟨by rwa [pc], by rwa [pending], by rwa [hcfg, pending], by rwa [hcfg, fault]⟩

theorem StateInv.controlInv (h : StateInv s) : ControlInv s :=
  ⟨h.pcAligned, h.pendingSorted, h.atomicEmpty, h.trapOldOnly⟩

theorem StateInv.step (hs : StateInv s) (h : Machine.step s = .next u) : StateInv u := by
  have hk := step_statusKept h
  have hcfg : u.cfg = s.cfg := by rw [hk]
  have hprog : u.program = s.program := by rw [hk]
  obtain ⟨hmw, hme, hcw, hcl, hce⟩ := step_keeps_stored hs.stored h
  obtain ⟨ha, hq, he, hx⟩ := (step_control h).keeps_controlInv hcfg hs.controlInv
  exact ⟨by rw [hcfg]; exact hs.cfgOk, by rw [hprog]; exact hs.programOk, ha, hmw, hme, hcw, hcl, hce,
    hq, he, hx⟩

/-- Settles O52: the stores and the three control fields are kept in order, the rest is not written. -/
theorem stepKeepsTheInvariant : Obligations.StepKeepsTheInvariant := by
  unfold Obligations.StepKeepsTheInvariant
  exact fun _ _ hs h => hs.step h

/-! ## Runs of any length -/

/-- What every step keeps holds of every state a run reaches. -/
theorem run_induction {P : State → Prop} (hstep : ∀ s u, P s → step s = .next u → P u) {k : Nat}
    (hs : P s) (h : Host.Core.run core k s = .next u) : P u := by
  induction k generalizing s with
  | zero =>
    cases h
    exact hs
  | succ k ih =>
    obtain ⟨w, hw, hr⟩ := run_succ_next h
    exact ih (hstep s w hs hw) hr

/-- A launch state meets the invariant: `pc` is at the base, which is aligned. -/
theorem Launch.stateInv (h : Launch s) : StateInv s where
  cfgOk := h.cfgOk
  programOk := h.programOk
  pcAligned := by
    have hwf := h.programOk
    simp only [Program.wellFormed, Bool.and_eq_true, decide_eq_true_eq] at hwf
    rw [h.pcAtBase]
    exact hwf.1
  memWf := h.memWf
  memExists := h.memExists
  cacheWf := h.cacheWf
  cacheLength := h.cacheLength
  cacheExists := h.cacheExists
  pendingSorted := h.pendingSorted
  atomicEmpty := h.atomicEmpty
  trapOldOnly := by simp [h.noFault]

/-- Settles O51: the invariant holds at launch and every step keeps it. -/
theorem runsFromALaunchMeetTheInvariant : Obligations.RunsFromALaunchMeetTheInvariant := by
  unfold Obligations.RunsFromALaunchMeetTheInvariant
  exact fun _ _ _ hL h => run_induction (fun _ _ hs h => hs.step h) hL.stateInv h

/-- Settles O55: no step writes these fields. -/
theorem runsNeverWriteRegistersStatusOrProgram : Obligations.RunsNeverWriteRegistersStatusOrProgram := by
  unfold Obligations.RunsNeverWriteRegistersStatusOrProgram
  intro k s u h
  have hk : StatusKept s u :=
    run_induction (fun _ _ hs h => hs.trans (step_statusKept h)) (show StatusKept s s from rfl) h
  exact ⟨by rw [hk], by rw [hk], by rw [hk], by rw [hk], by rw [hk], by rw [hk], by rw [hk]⟩

/-- What a run from `s` at EL0 or EL1 under the new edition leaves of it: the level, `pc`, and of the requests and the fault
record what the other agents leave. -/
structure Unprivileged (s u : State) : Prop where
  edition : u.cfg.edition = .new
  level : u.el = .el0 ∨ u.el = .el1
  pc : u.pc = s.pc
  pending : u.pendingDC.Sublist s.pendingDC
  fault : u.fault = s.fault ∨ u.fault = some .undefined

/-- At EL0 and EL1 the check fails with Undefined, so the PE's turn records that at most. -/
theorem Unprivileged.step (hs : Unprivileged s u) (h : Machine.step u = .next v) : Unprivileged s v := by
  obtain ⟨he, hl, hpc, hq, hf⟩ := hs
  have hk := step_statusKept h
  have he' : v.cfg.edition = .new := by rw [hk]; exact he
  have hl' : v.el = .el0 ∨ v.el = .el1 := by rwa [hk.el]
  have hc := step_control h
  generalize (takeTurn u).1 = t at hc
  cases hc with
  | records f _ check fault _ pc pending =>
    refine ⟨he', hl', pc.trans hpc, by rwa [pending], .inr ?_⟩
    rw [fault, accessCheck_new_eq_undefined he check]
  | completes _ check =>
    rw [(accessCheck_new_eq_undefined_iff he).mpr (.inr (hl.imp_right .inl))] at check
    cases check
  | maintains l fault pc pending =>
    exact ⟨he', hl', pc.trans hpc, by rw [pending]; exact List.erase_sublist.trans hq, by rwa [fault]⟩
  | moves l m fault pc pending =>
    exact ⟨he', hl', pc.trans hpc, by rwa [pending], by rwa [fault]⟩

/-- Settles O56: every step keeps it, whichever agent takes the turn. -/
theorem unprivilegedRunsIssueNothing : Obligations.UnprivilegedRunsIssueNothing := by
  unfold Obligations.UnprivilegedRunsIssueNothing
  intro k s u he hl h
  have h0 : Unprivileged s s := ⟨he, hl, rfl, .refl _, .inl rfl⟩
  obtain ⟨-, -, hpc, hq, hf⟩ := run_induction (fun _ _ hs h => hs.step h) h0 h
  exact ⟨hpc, hq, hf⟩

/-! ## Clean copies and the value of a line -/

/-- A clean copy of the line equals memory. -/
def LineAgrees (s : State) (l : LineId) : Prop :=
  ∀ e, cacheEntry s l = some e → e.dirty = false → e.data = memLine s l

/-- In canonical banks the entries are those the lookup finds. -/
theorem cleanAgrees_iff (hw : ∀ p, (s.cache.get p).wf) : CleanAgrees s ↔ ∀ l, LineAgrees s l := by
  constructor
  · intro h l e he
    obtain ⟨hm, hi⟩ := CacheBank.mem_of_lookup he
    have := h l.space e hm
    rwa [hi] at this
  · exact fun h p e he => h { space := p, idx := e.idx } e (CacheBank.lookup_of_mem (hw p) he)

theorem SameStores.lineAgrees (h : SameStores s u) (l : LineId) : LineAgrees u l ↔ LineAgrees s l := by
  rw [LineAgrees, LineAgrees, h.cacheEntry, h.memLine]

/-- A change of one line leaves the clean copies of the others alone. -/
theorem OnlyLine.lineAgrees (ho : OnlyLine l s u) (hs : ∀ l, LineAgrees s l) (hl : LineAgrees u l) :
    ∀ l, LineAgrees u l := by
  intro l'
  by_cases hne : l' = l
  · rwa [hne]
  · rw [LineAgrees, ho.entries l' hne, ho.memLine hne]
    exact hs l'

theorem LineAgrees.of_no_entry (h : cacheEntry s l = none) : LineAgrees s l := by
  simp [LineAgrees, h]

theorem cleanInvalidate_keeps_lineAgrees (hs : ∀ l, LineAgrees s l) (l : LineId) :
    ∀ l', LineAgrees (cleanInvalidate l s) l' := by
  refine (cleanInvalidate_onlyLine l s).lineAgrees hs ?_
  cases hx : lineExists s.cfg l with
  | false =>
    rw [cleanInvalidate_of_not_exists hx]
    exact hs l
  | true => exact .of_no_entry (cacheEntry_cleanInvalidate hx)

/-- An entry just set is dirty, or agrees with memory where its value is memory's. -/
theorem lineAgrees_setLine {d : List Byte} {b : Bool} (h : b = false → d = memLine s l) :
    LineAgrees (setLine l d b s) l := by
  intro e he hd
  rw [cacheEntry_setLine] at he
  cases he
  exact h hd

theorem environment_keeps_lineAgrees (hst : Stored s) (hs : ∀ l, LineAgrees s l) (l : LineId)
    (m : EnvMove) : ∀ l', LineAgrees (environment l m s) l' := by
  have ho := environment_onlyLine l m s
  obtain h | ⟨-, ⟨-, -, h⟩ | ⟨-, h⟩ | ⟨e, -, he, -, h⟩ | ⟨d, -, -, h⟩ | ⟨d, -, -, hc, h⟩⟩ :=
    environment_cases l m s <;> rw [h] at ho ⊢
  · exact hs
  · exact ho.lineAgrees hs (lineAgrees_setLine fun _ => rfl)
  · exact cleanInvalidate_keeps_lineAgrees hs l
  · exact ho.lineAgrees hs
      (lineAgrees_setLine fun _ => (memLine_writeLine (hst.memWf _) (hst.entry_length he)).symm)
  · exact ho.lineAgrees hs (lineAgrees_setLine fun h => by cases h)
  · exact ho.lineAgrees hs (.of_no_entry (cached_none_iff.mp hc))

/-- Settles O53: whatever a step does to a line, the line's clean copy agrees with memory after it. -/
theorem stepKeepsCleanCopiesEqualToMemory : Obligations.StepKeepsCleanCopiesEqualToMemory := by
  unfold Obligations.StepKeepsCleanCopiesEqualToMemory
  intro s u hinv hagree h
  rw [cleanAgrees_iff (hinv.step h).cacheWf]
  have hs : ∀ l, LineAgrees (takeTurn s).2 l := fun l =>
    ((takeTurn_sameStores s).lineAgrees l).mpr ((cleanAgrees_iff hinv.cacheWf).mp hagree l)
  obtain ⟨w, hw, rfl | ⟨l, rfl⟩ | ⟨l, m, -, rfl⟩⟩ := step_stores h <;>
    refine fun l' => (hw.lineAgrees l').mpr ?_
  · exact hs l'
  · exact cleanInvalidate_keeps_lineAgrees hs l l'
  · exact environment_keeps_lineAgrees hinv.stored.takeTurn hs l m l'

theorem lineValue_of_entry {e : CacheLine} (h : cacheEntry s l = some e) : lineValue s l = e.data := by
  rw [lineValue, cached_of_entry h]

theorem lineValue_of_no_entry (h : cacheEntry s l = none) : lineValue s l = memLine s l := by
  rw [lineValue, cached_none_iff.mpr h]

theorem SameStores.lineValue (h : SameStores s u) (l : LineId) :
    Machine.lineValue u l = Machine.lineValue s l := by
  rw [Machine.lineValue, Machine.lineValue, cached, cached, h.cacheEntry, h.memLine]

/-- A change of one line leaves the values of the others alone. -/
theorem OnlyLine.lineValue {l' : LineId} (ho : OnlyLine l s u) (hne : l' ≠ l) :
    Machine.lineValue u l' = Machine.lineValue s l' := by
  rw [Machine.lineValue, Machine.lineValue, ho.cached hne, ho.memLine hne]

/-- A dirty value goes to memory, and a clean one was memory's: observers see what they saw (R46). -/
theorem lineValue_cleanInvalidate (hst : Stored s) (hs : LineAgrees s l) :
    lineValue (cleanInvalidate l s) l = lineValue s l := by
  cases he : cacheEntry s l with
  | none => rw [cleanInvalidate_of_none he]
  | some e =>
    rw [lineValue_of_no_entry (cacheEntry_cleanInvalidate (hst.entry_exists he)),
      hst.memLine_cleanInvalidate he, lineValue_of_entry he]
    split
    · rfl
    · exact (hs e he (by simpa using ‹¬ e.dirty = true›)).symm

/-- Of the environment's moves the two writes alone change the value of their line. -/
theorem lineValue_environment {m : EnvMove} (hst : Stored s) (hs : LineAgrees s l)
    (hw : ∀ d, m ≠ .write d) (hwt : ∀ d, m ≠ .writeThrough d) :
    lineValue (environment l m s) l = lineValue s l := by
  obtain h | ⟨-, ⟨-, hc, h⟩ | ⟨-, h⟩ | ⟨e, -, he, -, h⟩ | ⟨d, hm, -⟩ | ⟨d, hm, -⟩⟩ :=
    environment_cases l m s
  · rw [h]
  · rw [h, lineValue_of_entry (cacheEntry_setLine l _ _ s), lineValue_of_no_entry (cached_none_iff.mp hc)]
  · rw [h]
    exact lineValue_cleanInvalidate hst hs
  · rw [h, lineValue_of_entry (cacheEntry_setLine l _ _ _), lineValue_of_entry he]
  · exact absurd hm (hw d)
  · exact absurd hm (hwt d)

/-- Settles O54: a step changes one line at most, and that line's value by a write alone. -/
theorem onlyWritesChangeTheValueOfALine : Obligations.OnlyWritesChangeTheValueOfALine := by
  unfold Obligations.OnlyWritesChangeTheValueOfALine
  intro s u l hinv hagree h hw hwt
  have hst := hinv.stored.takeTurn
  have hs : LineAgrees (takeTurn s).2 l :=
    ((takeTurn_sameStores s).lineAgrees l).mpr ((cleanAgrees_iff hinv.cacheWf).mp hagree l)
  rw [← (takeTurn_sameStores s).lineValue l]
  obtain ⟨w, hsame, rfl | ⟨l', rfl⟩ | ⟨l', m, ht, rfl⟩⟩ := step_stores h <;> rw [hsame.lineValue]
  · by_cases hne : l = l'
    · subst hne
      exact lineValue_cleanInvalidate hst hs
    · exact (cleanInvalidate_onlyLine l' _).lineValue hne
  · by_cases hne : l = l'
    · subst hne
      exact lineValue_environment hst hs (fun d hd => hw d (by rw [ht, hd]))
        (fun d hd => hwt d (by rw [ht, hd]))
    · exact (environment_onlyLine l' m _).lineValue hne

end Sys2Proof.Machine

/-! Proofs about runs without end: weak fairness performs every request (R109), and such runs are runs of the machine (R40). -/

namespace Sys2Proof.Machine

variable {turns : Nat → Turn} {states : Nat → State} {s u : State} {t : Turn} {l : LineId}

/-! ## A measure that no turn raises and every perform lowers -/

/-- How far the PE can still move `pc`: a bound on the requests it can still make. -/
def peBudget (s : State) : Nat := if s.fault = none then 2 ^ 64 - s.pc.toNat else 0

/-- The requests that are pending, and a bound on those to come. -/
def budget (s : State) : Nat := peBudget s + s.pendingDC.length

theorem peBudget_of_no_fault (h : s.fault = none) : peBudget s = 2 ^ 64 - s.pc.toNat := if_pos h

theorem peBudget_congr (hf : u.fault = s.fault) (hpc : u.pc = s.pc) : peBudget u = peBudget s := by
  rw [peBudget, peBudget, hf, hpc]

/-- Completing an instruction costs the PE four of its budget, more than the request it may make. -/
theorem peBudget_completes (hs : s.fault = none) (hu : u.fault = none) (hpc : u.pc = s.pc + 4)
    (hlow : s.pc.toNat ≤ 2 ^ 64 - 8) : peBudget u + 4 = peBudget s := by
  have hadd : (s.pc + 4).toNat = s.pc.toNat + 4 := by bv_omega
  rw [peBudget_of_no_fault hs, peBudget_of_no_fault hu, hpc, hadd]
  omega

theorem Control.budget_le (h : Control s u t) : budget u ≤ budget s := by
  unfold budget
  cases h with
  | records f _ _ fault _ _ pending =>
    have hu : peBudget u = 0 := if_neg (by simp [fault])
    rw [hu, pending]
    omega
  | completes noFault _ fault _ low pc pending =>
    have hb := peBudget_completes noFault fault pc low
    obtain pending | ⟨l, -, -, pending⟩ := pending
    · rw [pending]
      omega
    · rw [pending, (pendingInsert_perm l _).length_eq, List.length_cons]
      omega
  | maintains l fault pc pending =>
    rw [peBudget_congr fault pc, pending]
    exact Nat.add_le_add_left (List.length_erase_le) _
  | moves l m fault pc pending => rw [peBudget_congr fault pc, pending]

theorem budget_maintain_lt (h : l ∈ s.pendingDC) : budget (maintain l s) < budget s := by
  have ho := maintain_onlyLine l s
  have hpos := List.length_pos_of_mem h
  rw [budget, budget, peBudget_congr (s := s) ho.fault ho.pc, maintain_pendingDC,
    List.length_erase_of_mem h]
  omega

/-! ## Runs -/

/-- A turn keeps the fields that no agent writes. -/
theorem moveAgent_statusKept (h : moveAgent t s = .next u) : StatusKept s u := by
  obtain ⟨-, -, i, -, hx⟩ | ⟨l, -, rfl⟩ | ⟨l, m, -, rfl⟩ := moveAgent_cases h
  · exact exec_statusKept hx
  · exact maintain_statusKept l s
  · exact (environment_onlyLine l m s).statusKept

section
variable (hrun : IsRun turns states)
include hrun

theorem IsRun.control (k : Nat) : Control (states k) (states (k + 1)) (turns k) :=
  moveAgent_control (hrun k)

theorem IsRun.budget_antitone : Antitone fun k => budget (states k) :=
  antitone_nat_of_succ_le fun k => (hrun.control k).budget_le

theorem IsRun.performs_next {k : Nat} (h : Performs turns states k l) :
    states (k + 1) = maintain l (states k) := by
  have hk := hrun k
  rw [h.1] at hk
  exact (Host.Outcome.next.inj hk).symm

/-- From some step on there is no perform: the measure cannot fall for ever. -/
theorem IsRun.performs_end : ∃ K, ∀ j, K ≤ j → ∀ l, ¬ Performs turns states j l := by
  refine ⟨Function.argmin fun k => budget (states k), fun j hj l hp => ?_⟩
  have hlt : budget (states (j + 1)) < budget (states j) := by
    rw [hrun.performs_next hp]
    exact budget_maintain_lt hp.2
  exact Function.not_lt_argmin (fun k => budget (states k)) (j + 1)
    (hlt.trans_le (hrun.budget_antitone hj))

/-- A request that is never performed stays pending. -/
theorem IsRun.pending_of_starved {k : Nat} (hl : l ∈ (states k).pendingDC)
    (hn : ∀ j, k ≤ j → ¬ Performs turns states j l) {j : Nat} (hj : k ≤ j) :
    l ∈ (states j).pendingDC := by
  induction j, hj using Nat.le_induction with
  | base => exact hl
  | succ j hj ih =>
    have hc := hrun.control j
    generalize ht : turns j = t at hc
    cases hc with
    | records _ _ _ _ _ _ pending => rwa [pending]
    | completes _ _ _ _ _ _ pending =>
      obtain pending | ⟨l', -, -, pending⟩ := pending <;> rw [pending]
      · exact ih
      · exact (pendingInsert_perm l' _).mem_iff.mpr (List.mem_cons_of_mem l' ih)
    | maintains l' _ _ pending =>
      have hne : l ≠ l' := fun h => hn j hj ⟨by rw [ht, h], ih⟩
      rw [pending]
      exact (List.mem_erase_of_ne hne).mpr ih
    | moves _ _ _ _ pending => rwa [pending]

/-- A weakly fair run performs every request (R109). -/
theorem IsRun.performs_of_fair (hfair : WeaklyFair turns states) {k : Nat}
    (hl : l ∈ (states k).pendingDC) : ∃ j, k ≤ j ∧ Performs turns states j l := by
  by_contra hno
  push Not at hno
  obtain ⟨K, hK⟩ := hrun.performs_end
  obtain ⟨j, l', hj, hp⟩ := hfair (max k K) fun j hj =>
    List.ne_nil_of_mem (hrun.pending_of_starved hl hno (le_of_max_le_left hj))
  exact hK j (le_of_max_le_right hj) l' hp

theorem IsRun.pending_end (hfair : WeaklyFair turns states) :
    ∃ K, ∀ j, K ≤ j → (states j).pendingDC = [] := by
  obtain ⟨K, hK⟩ := hrun.performs_end
  refine ⟨K, fun j hj => List.eq_nil_iff_forall_not_mem.mpr fun l hl => ?_⟩
  obtain ⟨i, hi, hp⟩ := hrun.performs_of_fair hfair hl
  exact hK i (hj.trans hi) l hp

/-- Past the text with no fault the PE has no turn, so it stays there. -/
theorem IsRun.past_text {k : Nat} (hpc : (states k).pc.toNat = programEnd (states k).program)
    (hf : (states k).fault = none) {j : Nat} (hj : k ≤ j) :
    (states j).pc.toNat = programEnd (states j).program ∧ (states j).fault = none := by
  induction j, hj using Nat.le_induction with
  | base => exact ⟨hpc, hf⟩
  | succ j hj ih =>
    obtain ⟨ihpc, ihf⟩ := ih
    have hprog : (states (j + 1)).program = (states j).program := by
      rw [moveAgent_statusKept (hrun j)]
    have hc := hrun.control j
    generalize turns j = t at hc
    cases hc with
    | records _ _ _ _ inText => exact absurd inText (by omega)
    | completes _ _ _ inText => exact absurd inText (by omega)
    | maintains l fault pc => exact ⟨by rw [pc, ihpc, hprog], fault.trans ihf⟩
    | moves l m fault pc => exact ⟨by rw [pc, ihpc, hprog], fault.trans ihf⟩

end

/-- Settles O59: the measure ends the performs, so fairness leaves no request starved. -/
theorem weaklyFairRunsPerformEveryRequest : Obligations.WeaklyFairRunsPerformEveryRequest := by
  unfold Obligations.WeaklyFairRunsPerformEveryRequest
  intro turns states hrun
  refine ⟨fun hfair => ⟨fun k l hl => ?_, hrun.pending_end hfair, fun k hpc hf => ?_⟩,
    fun k l hl hn j hj hF => ?_⟩
  · obtain ⟨j, hj, hp⟩ := hrun.performs_of_fair hfair hl
    refine ⟨j, hj, hp, fun hx => ?_⟩
    rw [hrun.performs_next hp]
    exact (uncached_maintain hp.2 hx).1
  · obtain ⟨K, hK⟩ := hrun.pending_end hfair
    obtain ⟨hpc', hf'⟩ := hrun.past_text hpc hf (le_max_left k K)
    exact ⟨max k K, le_max_left k K, hpc', hf', hK _ (le_max_right k K)⟩
  · exact List.ne_nil_of_mem (hrun.pending_of_starved hl hn hj) hF.2.2

/-! ## Runs on a schedule -/

/-- The first `k` turns of a run from its step `i` on, decided beforehand, give its state `k` steps later. -/
theorem IsRun.run_range' (hrun : IsRun turns states) (ts : List Turn) (i k : Nat) :
    Host.Core.run core k
        (((states i).setSchedule ((List.range' i k).map turns ++ ts)).setChoices 0) =
      .next (((states (i + k)).setSchedule ts).setChoices 0) := by
  induction k generalizing i with
  | zero => rfl
  | succ k ih =>
    have hstep : step (((states i).setSchedule ((List.range' i (k + 1)).map turns ++ ts)).setChoices 0) =
        .next (((states (i + 1)).setSchedule ((List.range' (i + 1) k).map turns ++ ts)).setChoices 0) :=
      moveAgent_scheduler (hrun i) _ 0
    rw [run_succ_of_next hstep, ih, Nat.add_right_comm, Nat.add_assoc]

/-- Settles O60: no agent looks at the scheduler's fields, so its move is the same with any turns decided. -/
theorem runsAreStepsOnTheirSchedule : Obligations.RunsAreStepsOnTheirSchedule := by
  unfold Obligations.RunsAreStepsOnTheirSchedule
  refine ⟨fun turns states k ts hrun => ?_, fun s u ts n h => ?_⟩
  · have := hrun.run_range' ts 0 k
    rw [Nat.zero_add, ← List.range_eq_range'] at this
    exact this
  · have := moveAgent_scheduler h ts n
    rw [takeTurn_fields] at this
    exact this

end Sys2Proof.Machine
